-- ==== Sys2Proof/Word.lean ====
section
/-! DEFINITION. The words of the block: a report or command byte, and a 12-bit sample (spec/00_scope.md section 5,
spec/10_state.md R6, R9, R12). -/

namespace Sys2Proof

/-- One byte: a byte of the report space (R17) or of the receive port (R13). -/
abbrev Byte := BitVec 8

/-- The 8-bit command word `cmd[7:0]` (R12, R29). Bit 0 is the least significant bit (00_scope.md section 5). -/
abbrev CommandWord := BitVec 8

/-- A 12-bit value: the contents of `RESULT` (R9) and a raw analog sample (R41). -/
abbrev Sample := BitVec 12

end Sys2Proof
end

