-- ==== Sys2Proof/Config.lean ====
section
/-! DEFINITION. The implementation parameters of spec/00_scope.md R3, at the values this hardware takes. The three
parameters to which R3 gives a set of legal values are collected in `Layout`, so that a location function takes them as
an argument and the rules that are claimed "for every legal value" (R50, R58) can be stated so. `P_RX_MAX`, which R3
leaves OPEN, has no body. The values are the spec's and were not audited (log entry 7). -/

namespace Sys2Proof

/-- The legal values of `P_MATRIX_EVEN_ROW_BYTE` (R3): the report byte that holds matrix rows 0 and 2. -/
inductive MatrixByte where
  /-- byte 1 -/
  | byte1
  /-- byte 2 -/
  | byte2
deriving DecidableEq, Repr

/-- The legal values of `P_MATRIX_FIRST_ROW_NIBBLE` (R3): the nibble that holds the lower-numbered row of a byte. -/
inductive Nibble where
  /-- bits 7..4 -/
  | upper
  /-- bits 3..0 -/
  | lower
deriving DecidableEq, Repr

/-- The legal values of `P_CONTROL_TOP_BIT` (R3): the bit of byte 4 that holds Control(0). -/
inductive ControlTop where
  /-- bit 3 -/
  | bit3
  /-- bit 2 -/
  | bit2
deriving DecidableEq, Repr

/-- The parameters of R3 that have more than one legal value. -/
structure Layout where
  /-- `P_MATRIX_EVEN_ROW_BYTE` -/
  matrixEvenRowByte : MatrixByte
  /-- `P_MATRIX_FIRST_ROW_NIBBLE` -/
  matrixFirstRowNibble : Nibble
  /-- `P_CONTROL_TOP_BIT` -/
  controlTopBit : ControlTop
deriving DecidableEq, Repr

namespace Config

/-- `P_REPORT_LEN`: the bytes of a report. -/
abbrev reportLen : Nat := 22
/-- `P_REPORT_ID`: the identifier a report's byte 0 must hold. -/
def reportId : Byte := 0x01#8
/-- `P_MATRIX_ROWS` -/
abbrev matrixRows : Nat := 4
/-- `P_MATRIX_COLS` -/
abbrev matrixCols : Nat := 4
/-- `P_MATRIX_BYTE_LO` -/
abbrev matrixByteLo : Nat := 1
/-- `P_MATRIX_BYTE_HI` -/
abbrev matrixByteHi : Nat := 2
/-- `P_SPECIAL_BYTE` -/
abbrev specialByte : Nat := 3
/-- `P_SPECIAL_COUNT` -/
abbrev specialCount : Nat := 6
/-- `P_STOPCTL_BYTE` -/
abbrev stopCtlByte : Nat := 4
/-- `P_STOP_COUNT` -/
abbrev stopCount : Nat := 4
/-- `P_CONTROL_COUNT` -/
abbrev controlCount : Nat := 3
/-- `P_WHEEL_BYTE` -/
abbrev wheelByte : Nat := 5
/-- `P_WHEEL_MASK` -/
def wheelMask : Byte := 0xFF#8
/-- `P_KNOB_BASE` -/
abbrev knobBase : Nat := 6
/-- `P_FADER_BASE` -/
abbrev faderBase : Nat := 14
/-- `P_ANALOG_STRIDE` -/
abbrev analogStride : Nat := 2
/-- `P_ANALOG_COUNT`: channels of each class. -/
abbrev analogCount : Nat := 4
/-- `P_ANALOG_BITS` -/
abbrev analogBits : Nat := 12
/-- The mask of `P_ANALOG_BITS` ones that R41 and R59 apply to a 16-bit pair. -/
def analogMask : BitVec 16 := 0x0FFF#16

/-- `P_RX_MAX`, the most bytes one transport read delivers: OPEN in R3 ("rules hold for every value"), so it has no
body and no proof can use a value of it (log entry 6). -/
opaque rxMax : Nat

/-- The values R3 gives the parameters of `Layout`: even rows in byte 1, rows 0 and 1 in the upper nibble, Control(0)
at bit 3. -/
def layout : Layout := ⟨.byte1, .upper, .bit3⟩

end Config
end Sys2Proof
end

