-- ==== Sys2Proof/Syntax.lean ====
section
/-! DEFINITION. The command set IRD-1 (spec/30_encoding.md R29 to R35): one constructor of `Instr` per row of the opcode
map, and the assembler's own terms (a command as written, and the pseudo-instruction names). -/

namespace Sys2Proof

/-- A legal command (R31), its operands as the fields of the word hold them (R30): a 2-bit row and column, a 3-bit
index. An index beyond its group is a legal command; the block reports it OUT_OF_RANGE (R34, R74). -/
inductive Instr where
  /-- DECODE, format N (R48) -/
  | decode
  /-- MATRIX row, col, format M (R51) -/
  | matrix (row col : BitVec 2)
  /-- STOP index, format I (R53) -/
  | stop (index : BitVec 3)
  /-- SPECIAL index, format I (R55) -/
  | special (index : BitVec 3)
  /-- CONTROL index, format I (R57) -/
  | control (index : BitVec 3)
  /-- KNOB index, format I (R60) -/
  | knob (index : BitVec 3)
  /-- FADER index, format I (R61) -/
  | fader (index : BitVec 3)
  /-- WHEEL, format N (R63) -/
  | wheel
deriving DecidableEq, Repr

/-- The eight operations of the opcode map (R31). -/
inductive Opcode where
  | decode | matrix | stop | special | control | knob | fader | wheel
deriving DecidableEq, Repr

/-- The opcode of a command. -/
def Instr.opcode : Instr → Opcode
  | .decode => .decode
  | .matrix _ _ => .matrix
  | .stop _ => .stop
  | .special _ => .special
  | .control _ => .control
  | .knob _ => .knob
  | .fader _ => .fader
  | .wheel => .wheel

/-- A command as an assembler reads it, before its operands are known to fit their fields (R34). -/
inductive SourceCommand where
  | decode
  | matrix (row col : Nat)
  | stop (index : Nat)
  | special (index : Nat)
  | control (index : Nat)
  | knob (index : Nat)
  | fader (index : Nat)
  | wheel
deriving DecidableEq, Repr

/-- The pseudo-instructions (R35), named after the buttons of R5. -/
inductive Pseudo where
  | shift | reverse | type | size | browse | wheelBtn | sync | quant | capture
deriving DecidableEq, Repr

end Sys2Proof
end

