-- ==== Sys2Proof/WellFormed.lean ====
section
/-! DEFINITION. The checks the spec puts on a command. A term of `Instr` always fits its encoding (its operands are the
fields of the word), so what is checked is: the reserved bits of a command word (R32, R44), the operands of a command as
written for the assembler (R34), and whether a command's operands name something that exists (R4). -/

namespace Sys2Proof

/-- `Illegal(cmd)` (R44): a reserved bit of the word's format is 1. Written from R44; the decoder does not use it. -/
def illegalWord (w : CommandWord) : Bool :=
  match (w.extractLsb' 5 3).toNat with
  | 0 => w.extractLsb' 0 5 != 0#5
  | 7 => w.extractLsb' 0 5 != 0#5
  | 1 => w.extractLsb' 4 1 != 0#1
  | _ => w.extractLsb' 3 2 != 0#2

/-- The operand names a button or channel that exists (R4): "Row/col and index are validated range-bound integers".
The commands for which this is false are legal and complete OUT_OF_RANGE (R74). -/
def Instr.inRange : Instr → Bool
  | .decode => true
  | .matrix row col => decide (row.toNat < Config.matrixRows) && decide (col.toNat < Config.matrixCols)
  | .stop i => decide (i.toNat < Config.stopCount)
  | .special i => decide (i.toNat < Config.specialCount)
  | .control i => decide (i.toNat < Config.controlCount)
  | .knob i => decide (i.toNat < Config.analogCount)
  | .fader i => decide (i.toNat < Config.analogCount)
  | .wheel => true

/-- Every operand fits its field (R34): an assembler "refuses an operand that does not fit its field (row or column > 3,
index > 7)". -/
def SourceCommand.wellFormed : SourceCommand → Bool
  | .decode => true
  | .matrix row col => decide (row ≤ 3) && decide (col ≤ 3)
  | .stop i => decide (i ≤ 7)
  | .special i => decide (i ≤ 7)
  | .control i => decide (i ≤ 7)
  | .knob i => decide (i ≤ 7)
  | .fader i => decide (i ≤ 7)
  | .wheel => true

end Sys2Proof
end

