-- ==== Sys2Proof/Decode.lean ====
section
/-! DEFINITION. The decoder and the encoder of the 8-bit command word (spec/30_encoding.md R29 to R32), and the opcode
table of R31 as data. The decoder is total: a word with a reserved bit set is rejected, by the format it breaks. -/

namespace Sys2Proof

/-- Why a word is illegal (R32): which format's reserved bits are not zero. -/
inductive IllegalWord where
  /-- format N, `cmd[4:0]` ≠ 0 -/
  | reservedBitsOfN
  /-- format M, `cmd[4]` ≠ 0 -/
  | reservedBitOfM
  /-- format I, `cmd[4:3]` ≠ 0 -/
  | reservedBitsOfI
deriving DecidableEq, Repr

/-- The opcode field `cmd[7:5]` (R29). -/
def opField (w : CommandWord) : BitVec 3 := w.extractLsb' 5 3

/-- The opcode map (R31). Every 3-bit value is assigned; the last arm is 0b111. -/
def opcodeOfBits (b : BitVec 3) : Opcode :=
  match b.toNat with
  | 0 => .decode
  | 1 => .matrix
  | 2 => .stop
  | 3 => .special
  | 4 => .control
  | 5 => .knob
  | 6 => .fader
  | _ => .wheel

/-- Format N (R30): no operand, bits 4..0 reserved. -/
def formatN (i : Instr) (w : CommandWord) : Except IllegalWord Instr :=
  if w.extractLsb' 0 5 = 0#5 then .ok i else .error .reservedBitsOfN

/-- Format M (R30): bit 4 reserved, `row = cmd[3:2]`, `col = cmd[1:0]`. -/
def formatM (i : BitVec 2 → BitVec 2 → Instr) (w : CommandWord) : Except IllegalWord Instr :=
  if w.extractLsb' 4 1 = 0#1 then .ok (i (w.extractLsb' 2 2) (w.extractLsb' 0 2)) else .error .reservedBitOfM

/-- Format I (R30): bits 4..3 reserved, `index = cmd[2:0]`. -/
def formatI (i : BitVec 3 → Instr) (w : CommandWord) : Except IllegalWord Instr :=
  if w.extractLsb' 3 2 = 0#2 then .ok (i (w.extractLsb' 0 3)) else .error .reservedBitsOfI

/-- The command a word stands for, or why it is illegal (R29 to R32). -/
def decode (w : CommandWord) : Except IllegalWord Instr :=
  match opcodeOfBits (opField w) with
  | .decode => formatN .decode w
  | .matrix => formatM .matrix w
  | .stop => formatI .stop w
  | .special => formatI .special w
  | .control => formatI .control w
  | .knob => formatI .knob w
  | .fader => formatI .fader w
  | .wheel => formatN .wheel w

/-- The word of a command, from the "Encoding" column of R31. -/
def encode : Instr → CommandWord
  | .decode => 0b00000000#8
  | .matrix row col => 0b0010#4 ++ row ++ col
  | .stop i => 0b01000#5 ++ i
  | .special i => 0b01100#5 ++ i
  | .control i => 0b10000#5 ++ i
  | .knob i => 0b10100#5 ++ i
  | .fader i => 0b11000#5 ++ i
  | .wheel => 0b11100000#8

/-- One row of the opcode table (R31): its operation, and the match and mask of its words. -/
structure OpcodeRow where
  op : Opcode
  value : BitVec 8
  mask : BitVec 8
deriving DecidableEq, Repr

/-- The opcode table's "Match" and "Mask" columns (R31). -/
def opcodeTable : List OpcodeRow :=
  [⟨.decode, 0x00#8, 0xFF#8⟩, ⟨.matrix, 0x20#8, 0xF0#8⟩, ⟨.stop, 0x40#8, 0xF8#8⟩, ⟨.special, 0x60#8, 0xF8#8⟩,
   ⟨.control, 0x80#8, 0xF8#8⟩, ⟨.knob, 0xA0#8, 0xF8#8⟩, ⟨.fader, 0xC0#8, 0xF8#8⟩, ⟨.wheel, 0xE0#8, 0xFF#8⟩]

/-- "A word `w` selects an opcode row when `(w & Mask) == Match`" (R31). -/
def OpcodeRow.selects (r : OpcodeRow) (w : CommandWord) : Bool := (w &&& r.mask) == r.value

/-- The command the decoder reads from a table row's bits. A command is one 8-bit word (R29): more than 8 bits, or a
value that does not fit them, is no command word (log entry 12). -/
def decodeTableWord (nbits w : Nat) : Option Instr :=
  if nbits ≤ 8 ∧ w < 256 then (decode (BitVec.ofNat 8 w)).toOption else none

end Sys2Proof
end

