-- ==== Sys2Proof/Machine/State.lean ====
section
/-! DEFINITION. The state of the block (spec/10_state.md R6 to R11) with what its host presents on its input ports (R12,
R13), the state after reset (R87), and the reasons a step can stop. -/

namespace Sys2Proof.Machine

/-- Why the block has no step. -/
inductive Fault where
  /-- Raised by `step` when the host has presented no command: "No step of the block starts without a command" (R1).
  Safe: the model stops where the block waits with its state unchanged (log entry 4). -/
  | noCommand
deriving DecidableEq, Repr

/-- Why a command has no meaning in the model. -/
inductive Refusal where
  /-- Kept for an arm of `exec` that has no meaning yet; no arm uses it. Safe: a refused step proves nothing. -/
  | notModelled (mnemonic : String)
deriving DecidableEq, Repr

/-- The eight values of `STATUS` (R8). -/
inductive Status where
  /-- 0: no command since reset -/
  | none
  /-- 1: success -/
  | ok
  /-- 2: `TransportUnavailable` -/
  | noData
  /-- 3: `TooShort`, class `MalformedReport` -/
  | tooShort
  /-- 4: `BadReportId`, class `MalformedReport` -/
  | badReportId
  /-- 5: `OutOfRange` -/
  | outOfRange
  /-- 6: accessor while `VALID = 0` -/
  | noReport
  /-- 7: command word with a reserved bit set -/
  | illegal
deriving DecidableEq, Repr

/-- The report byte space (R17): cells of an address and a byte, in the canonical form of `Report.wf`
(Machine/Ops.lean). -/
abbrev Report := List Host.Cell

/-- The receive port (R13): `rx_avail` and the bytes of `rx`, whose number is `len(rx)`. -/
structure RxPort where
  /-- `rx_avail` -/
  avail : Bool
  /-- `rx` -/
  bytes : List Byte
deriving DecidableEq, Repr

/-- One strobe of the command port (R12) with what the receive port holds, unchanged, while the command runs (R89). -/
structure Strobe where
  /-- `cmd[7:0]` -/
  cmd : CommandWord
  /-- the receive port during the command -/
  rx : RxPort
deriving DecidableEq, Repr

/-- The registers of the block (R6 to R10; "Nothing else is state", R11), and, below them, its inputs, which are held
here because a step is a function of the state alone (log entry 3). -/
structure State where
  /-- `RPT`, the latched report (R6) -/
  rpt : Report
  /-- `VALID` (R7) -/
  valid : Bool
  /-- `STATUS` (R8) -/
  status : Status
  /-- `RESULT` (R9) -/
  result : Sample
  /-- `FAULT`, sticky bits (R10) -/
  fault : BitVec 3
  /-- input: the receive port as now presented (R13) -/
  rx : RxPort
  /-- input: the host's strobes to come, the next first (R12, R25) -/
  pending : List Strobe
deriving DecidableEq, Repr

/-- Reset (R87): `VALID`, `STATUS`, `RESULT` and `FAULT` as the spec gives them. `RPT` "holds no value": no cell is
listed, and what an unlisted cell reads as is the model's choice (log entry 1). Nothing is presented on the ports
(log entry 3). -/
def State.reset : State where
  rpt := []
  valid := false
  status := .none
  result := 0#12
  fault := 0b000#3
  rx := ⟨false, []⟩
  pending := []

end Sys2Proof.Machine
end

