-- ==== Sys2Proof/Machine/Flags.lean ====
section
/-! DEFINITION. The codes and flags of the block: the number of each status (R8), its class (R70 to R74), and the bit of
`FAULT` it sets (R76). -/

namespace Sys2Proof.Machine

/-- The 3-bit code on the port `status[2:0]` (R8, R14). -/
def Status.code : Status → BitVec 3
  | .none => 0
  | .ok => 1
  | .noData => 2
  | .tooShort => 3
  | .badReportId => 4
  | .outOfRange => 5
  | .noReport => 6
  | .illegal => 7

/-- The status a 3-bit code names: every value is assigned (R8). -/
def Status.ofCode (c : BitVec 3) : Status :=
  match c.toNat with
  | 0 => .none
  | 1 => .ok
  | 2 => .noData
  | 3 => .tooShort
  | 4 => .badReportId
  | 5 => .outOfRange
  | 6 => .noReport
  | _ => .illegal

/-- The source's classes of outcome (R70, "Source class"). -/
inductive OutcomeClass where
  /-- no command since reset -/
  | none
  /-- success -/
  | success
  /-- `TransportUnavailable`, an expected outcome (R71) -/
  | transportUnavailable
  /-- `MalformedReport` (R72) -/
  | malformedReport
  /-- a programming-contract violation (R73, R74) -/
  | contractViolation
deriving DecidableEq, Repr

/-- The class of a status (R70 to R74; 90_conflicts.md C1 and C4). -/
def Status.outcomeClass : Status → OutcomeClass
  | .none => .none
  | .ok => .success
  | .noData => .transportUnavailable
  | .tooShort => .malformedReport
  | .badReportId => .malformedReport
  | .outOfRange => .contractViolation
  | .noReport => .contractViolation
  | .illegal => .contractViolation

/-- The bits of `FAULT` a command sets when it completes with this status (R76): bit 0 OUT_OF_RANGE, bit 1 NO_REPORT,
bit 2 ILLEGAL; no other status sets one (R77). -/
def Status.faultBits : Status → BitVec 3
  | .none => 0b000
  | .ok => 0b000
  | .noData => 0b000
  | .tooShort => 0b000
  | .badReportId => 0b000
  | .outOfRange => 0b001
  | .noReport => 0b010
  | .illegal => 0b100

end Sys2Proof.Machine
end

