-- ==== Sys2Proof/Machine/Ops.lean ====
section
/-! DEFINITION. The shared operations: the report byte space (R17, R20), the two ways a command ends (`complete` and
`raise`, 00_scope.md section 5 and R75; the block has no trap entry and no return, R81, R82), reset (R87), and taking the
next command from the command port (R12). -/

namespace Sys2Proof.Machine

/-! ### The report byte space -/

/-- What an address with no cell reads as. The spec gives `RPT` no value after reset (R6, R87); this value is the model's
(log entry 1). -/
def Report.unlisted : Byte := 0x00#8

/-- `RPT[a]` (R17). -/
def Report.read : Report → Nat → Byte
  | [], _ => Report.unlisted
  | (k, b) :: r, a => if k = a then b else Report.read r a

/-- `RPT[a] <- v`, keeping the canonical form. -/
def Report.write : Report → Nat → Byte → Report
  | [], a, v => if v = Report.unlisted then [] else [(a, v)]
  | (k, b) :: r, a, v =>
    if a < k then (if v = Report.unlisted then (k, b) :: r else (a, v) :: (k, b) :: r)
    else if a = k then (if v = Report.unlisted then r else (a, v) :: r)
    else (k, b) :: Report.write r a v

/-- `MemWrite(a, n, v)` (00_scope.md section 5), the bytes of `v` given least significant first. -/
def Report.memWrite : Report → Nat → List Byte → Report
  | r, _, [] => r
  | r, a, v :: vs => Report.memWrite (Report.write r a v) (a + 1) vs

/-- `MemRead(a, n)` (R20): the bytes `RPT[a]` to `RPT[a+n−1]`, little-endian, n·8 bits wide. -/
def Report.memRead (r : Report) : Nat → (n : Nat) → BitVec (8 * n)
  | _, 0 => 0#0
  | a, n + 1 => Report.memRead r (a + 1) n ++ Report.read r a

/-- The canonical form: addresses strictly rising, all in the report space (0 to 21, R17), and no cell equal to what an
unlisted address reads as. -/
abbrev Report.wf (r : Report) : Prop :=
  r.Pairwise (fun c d => c.1 < d.1) ∧ ∀ c ∈ r, c.1 < Config.reportLen ∧ c.2 ≠ Report.unlisted

/-! ### How a command ends -/

/-- `complete(v)`: `STATUS <- OK`, `RESULT <- v` (00_scope.md section 5). -/
def State.complete (v : Sample) (s : State) : State :=
  { s with status := .ok, result := v }

/-- `raise X` (R75): `STATUS <- X`, `RESULT <- 0`, and the `FAULT` bit of a contract fault (R76); nothing else. -/
def State.raise (x : Status) (s : State) : State :=
  { s with status := x, result := 0#12, fault := s.fault ||| x.faultBits }

/-- An illegal command word (R44, R73): it is not performed and completes ILLEGAL. -/
def execIllegal (s : State) : Host.Outcome State Fault Refusal :=
  .next (s.raise .illegal)

/-! ### Reset and the command port -/

/-- Reset applied to a running block (R87: "whatever it held before"): every register takes its reset value; the ports
are the host's. It is not a command and no step performs it (log entry 9). -/
def State.applyReset (s : State) : State :=
  { State.reset with rx := s.rx, pending := s.pending }

/-- The next strobe (R12): its word, and the state in which the command runs, with the receive port as the host presents
it for this command (R89). -/
def State.takeStrobe (s : State) : Option (CommandWord × State) :=
  match s.pending with
  | [] => none
  | p :: rest => some (p.cmd, { s with rx := p.rx, pending := rest })

end Sys2Proof.Machine
end

