-- ==== Sys2Proof/Machine/Operands.lean ====
section
/-! DEFINITION. Operand forms: the range limits of the accessor prologue (R49), the location functions of the buttons
(R50, R52, R54, R56), the analog sample (R59) and the wheel value (R62). The functions with more than one legal layout
take it as an argument (R3). -/

namespace Sys2Proof.Machine

/-- The groups the accessor prologue tells apart (R49). -/
inductive Group where
  | matrix | stop | special | control | knob | fader | wheel
deriving DecidableEq, Repr

/-- Where a button's bit lies: a byte of the report space (0 to 21) and a bit of it (7 is the most significant, R21). -/
structure Loc where
  byte : Fin Config.reportLen
  bit : Fin 8
deriving DecidableEq, Repr

/-- The number of identifiers of a group (R4), as the prologue's table has it (R49). -/
abbrev Group.limit : Group → Nat
  | .matrix => Config.matrixRows
  | .stop => Config.stopCount
  | .special => Config.specialCount
  | .control => Config.controlCount
  | .knob => Config.analogCount
  | .fader => Config.analogCount
  | .wheel => 1

/-- The byte that holds the even rows (`P_MATRIX_EVEN_ROW_BYTE`). -/
def evenRowByte : MatrixByte → Nat
  | .byte1 => Config.matrixByteLo
  | .byte2 => Config.matrixByteHi

/-- `MatrixLoc(row, col)` (R50): row parity selects the byte, `row div 2` the nibble, the column the bit, column 0
highest. -/
def matrixLoc (l : Layout) (row col : Fin 4) : Loc where
  byte :=
    if row.val % 2 = 0 then ⟨evenRowByte l.matrixEvenRowByte, by cases l.matrixEvenRowByte <;> decide⟩
    else ⟨3 - evenRowByte l.matrixEvenRowByte, by cases l.matrixEvenRowByte <;> decide⟩
  bit :=
    ⟨(if (row.val / 2 == 0) == (l.matrixFirstRowNibble == .upper) then 4 else 0) + 3 - col.val, by split <;> omega⟩

/-- `StopLoc(i)` (R52): bit 7 − i of byte 4. -/
def stopLoc (i : Fin 4) : Loc where
  byte := ⟨Config.stopCtlByte, by decide⟩
  bit := ⟨7 - i.val, by omega⟩

/-- `SpecialLoc(i)` (R54): bit 7 − i of byte 3. -/
def specialLoc (i : Fin 6) : Loc where
  byte := ⟨Config.specialByte, by decide⟩
  bit := ⟨7 - i.val, by omega⟩

/-- The value of `P_CONTROL_TOP_BIT`. -/
def controlTop : ControlTop → Nat
  | .bit3 => 3
  | .bit2 => 2

/-- `ControlLoc(i)` (R56): bit `P_CONTROL_TOP_BIT` − i of byte 4. -/
def controlLoc (l : Layout) (i : Fin 3) : Loc where
  byte := ⟨Config.stopCtlByte, by decide⟩
  bit := ⟨controlTop l.controlTopBit - i.val, by cases l.controlTopBit <;> simp only [controlTop] <;> omega⟩

/-- The buttons of the report: the 29 names of R4. -/
inductive ButtonId where
  | matrix (row col : Fin 4)
  | stop (i : Fin 4)
  | special (i : Fin 6)
  | control (i : Fin 3)
deriving DecidableEq, Repr

/-- The location of a button (R50, R52, R54, R56). -/
def ButtonId.loc (l : Layout) : ButtonId → Loc
  | .matrix row col => matrixLoc l row col
  | .stop i => stopLoc i
  | .special i => specialLoc i
  | .control i => controlLoc l i

/-- `RPT[byte][bit]`. -/
def Report.bit (r : Report) (p : Loc) : Bool := (r.read p.byte.val).getLsbD p.bit.val

/-- `AnalogRaw(base, k)` (R59): the pair at `base + 2·k`, little-endian, masked to 12 bits. -/
def Report.analogRaw (r : Report) (base : Nat) (k : Fin 4) : Sample :=
  (r.memRead (base + Config.analogStride * k.val) 2 &&& Config.analogMask).setWidth Config.analogBits

/-- `WheelRaw()` (R62): byte 5, passed through. -/
def Report.wheelRaw (r : Report) : Byte := r.memRead Config.wheelByte 1 &&& Config.wheelMask

/-- A button state as a result: bit 0, with bits 11..1 zero (R9). -/
def buttonResult (pressed : Bool) : Sample := (BitVec.ofBool pressed).setWidth 12

/-- The accessor prologue (R49): the index must be in range for its group, then a report must be held. It hands the
accessor the index as an identifier of the group, and writes nothing itself. -/
def prologue (g : Group) (index : Nat) (s : State) (access : Fin g.limit → State) : State :=
  if h : index < g.limit then
    (if s.valid then access ⟨index, h⟩ else s.raise .noReport)
  else s.raise .outOfRange

end Sys2Proof.Machine
end

