-- ==== Sys2Proof/Machine/Analog.lean ====
section
/-! DEFINITION. The analog and wheel accessors KNOB, FADER and WHEEL (spec/42_analog_wheel.md). -/

namespace Sys2Proof.Machine

/-- KNOB i (R60). -/
def execKnob (i : BitVec 3) (s : State) : Host.Outcome State Fault Refusal :=
  .next (prologue .knob i.toNat s fun k => s.complete (s.rpt.analogRaw Config.knobBase k))

/-- FADER i (R61). -/
def execFader (i : BitVec 3) (s : State) : Host.Outcome State Fault Refusal :=
  .next (prologue .fader i.toNat s fun k => s.complete (s.rpt.analogRaw Config.faderBase k))

/-- WHEEL (R63): the wheel byte in bits 7..0 of `RESULT`, bits 11..8 zero. -/
def execWheel (s : State) : Host.Outcome State Fault Refusal :=
  .next (prologue .wheel 0 s fun _ => s.complete (s.rpt.wheelRaw.setWidth 12))

end Sys2Proof.Machine
end

