-- ==== Sys2Proof/Machine/Buttons.lean ====
section
/-! DEFINITION. The button accessors MATRIX, STOP, SPECIAL and CONTROL (spec/41_buttons.md). The two whose locations have
more than one legal layout are written for any layout, and the command takes the values of R3. -/

namespace Sys2Proof.Machine

/-- MATRIX row, col (R51) under a layout. -/
def execMatrixWith (l : Layout) (row col : BitVec 2) (s : State) : Host.Outcome State Fault Refusal :=
  .next (prologue .matrix 0 s fun _ => s.complete (buttonResult (s.rpt.bit (matrixLoc l row.toFin col.toFin))))

/-- MATRIX row, col (R51). -/
def execMatrix (row col : BitVec 2) (s : State) : Host.Outcome State Fault Refusal :=
  execMatrixWith Config.layout row col s

/-- STOP i (R53). -/
def execStop (i : BitVec 3) (s : State) : Host.Outcome State Fault Refusal :=
  .next (prologue .stop i.toNat s fun k => s.complete (buttonResult (s.rpt.bit (stopLoc k))))

/-- SPECIAL i (R55). -/
def execSpecial (i : BitVec 3) (s : State) : Host.Outcome State Fault Refusal :=
  .next (prologue .special i.toNat s fun k => s.complete (buttonResult (s.rpt.bit (specialLoc k))))

/-- CONTROL i (R57) under a layout. -/
def execControlWith (l : Layout) (i : BitVec 3) (s : State) : Host.Outcome State Fault Refusal :=
  .next (prologue .control i.toNat s fun k => s.complete (buttonResult (s.rpt.bit (controlLoc l k))))

/-- CONTROL i (R57). -/
def execControl (i : BitVec 3) (s : State) : Host.Outcome State Fault Refusal :=
  execControlWith Config.layout i s

end Sys2Proof.Machine
end

