-- ==== Sys2Proof/Machine/Validation.lean ====
section
/-! DEFINITION. DECODE (spec/40_decode.md): the validation conditions R45 to R47 and the command R48. -/

namespace Sys2Proof.Machine

/-- `NoData` (R45): `rx_avail = 0` or `len(rx) = 0`. -/
def RxPort.noData (p : RxPort) : Bool := !p.avail || p.bytes.length == 0

/-- `TooShort` (R46): not `NoData`, and fewer than 22 bytes. -/
def RxPort.tooShort (p : RxPort) : Bool := !p.noData && decide (p.bytes.length < Config.reportLen)

/-- `BadReportId` (R47): at least 22 bytes, and byte 0 is not the identifier. -/
def RxPort.badReportId (p : RxPort) : Bool :=
  decide (Config.reportLen ≤ p.bytes.length) && p.bytes.head? != some Config.reportId

/-- Why DECODE refuses what the receive port holds: "checked in that order, the first that holds is reported" (R48, R78). -/
def RxPort.refusal (p : RxPort) : Option Status :=
  if p.noData then some .noData
  else if p.tooShort then some .tooShort
  else if p.badReportId then some .badReportId
  else none

/-- The receive port holds a report that DECODE accepts. -/
def RxPort.accepted (p : RxPort) : Bool := p.refusal.isNone

/-- DECODE (R48): a refusal clears `VALID` and is reported; otherwise bytes 0 to 21 of the receive port are latched (R24:
the rest are not read). -/
def execDecode (s : State) : Host.Outcome State Fault Refusal :=
  .next <|
    match s.rx.refusal with
    | some x => State.raise x { s with valid := false }
    | none => State.complete 0#12
        { s with rpt := s.rpt.memWrite 0 (s.rx.bytes.take Config.reportLen), valid := true }

end Sys2Proof.Machine
end

