-- ==== Sys2Proof/Machine/Dispatch.lean ====
section
/-! DEFINITION. The meaning of every legal command (spec/40_decode.md R43), one arm per row of the opcode map (R31). -/

namespace Sys2Proof.Machine

def exec (i : Instr) (s : State) : Host.Outcome State Fault Refusal :=
  match i with
  | .decode => Sys2Proof.Machine.execDecode s
  | .matrix row col => Sys2Proof.Machine.execMatrix row col s
  | .stop index => Sys2Proof.Machine.execStop index s
  | .special index => Sys2Proof.Machine.execSpecial index s
  | .control index => Sys2Proof.Machine.execControl index s
  | .knob index => Sys2Proof.Machine.execKnob index s
  | .fader index => Sys2Proof.Machine.execFader index s
  | .wheel => Sys2Proof.Machine.execWheel s

end Sys2Proof.Machine
end

