-- ==== Sys2Proof/Machine/Step.lean ====
section
/-! DEFINITION. The command step (spec/40_decode.md R43): one strobe, one command, one step (R1, R12). -/

namespace Sys2Proof.Machine

/-- One step (R43): take the next strobe, check its word's legality (R44), and perform the command. Without a strobe
there is no step (R1). -/
def step (s : State) : Host.Outcome State Fault Refusal :=
  match s.takeStrobe with
  | none => .fault .noCommand
  | some (w, s') =>
    match decode w with
    | .ok i => exec i s'
    | .error _ => execIllegal s'

/-- The host presents one more command, to be performed next, with the receive port as it now is (log entry 5). A command
is one 8-bit word (R29), whatever number of bits a table gives it. -/
def State.withFetchWord (s : State) (_nbits w : Nat) : State :=
  { s with pending := ⟨BitVec.ofNat 8 w, s.rx⟩ :: s.pending }

end Sys2Proof.Machine
end

