-- ==== Sys2Proof/Machine/Assembler.lean ====
section
/-! DEFINITION. The assembler syntax and the pseudo-instructions (spec/30_encoding.md R34, R35). The block never sees this
text; it is here because the spec writes its programs in it. What R34 leaves open (blanks, letter case, empty lines) is
log entry 11. -/

namespace Sys2Proof

/-- The one command a pseudo-instruction assembles to (R35). -/
def Pseudo.expand : Pseudo → Instr
  | .shift => .special 0
  | .reverse => .special 1
  | .type => .special 2
  | .size => .special 3
  | .browse => .special 4
  | .wheelBtn => .special 5
  | .sync => .control 0
  | .quant => .control 1
  | .capture => .control 2

/-- The command a source command assembles to: refused when an operand does not fit its field (R34), else as written,
out-of-range indices included. -/
def SourceCommand.assemble (c : SourceCommand) : Option Instr :=
  if c.wellFormed then
    some (match c with
      | .decode => .decode
      | .matrix row col => .matrix (BitVec.ofNat 2 row) (BitVec.ofNat 2 col)
      | .stop i => .stop (BitVec.ofNat 3 i)
      | .special i => .special (BitVec.ofNat 3 i)
      | .control i => .control (BitVec.ofNat 3 i)
      | .knob i => .knob (BitVec.ofNat 3 i)
      | .fader i => .fader (BitVec.ofNat 3 i)
      | .wheel => .wheel)
  else none

namespace Asm

/-- A blank inside a line. -/
def isBlank (c : Char) : Bool := c == ' ' || c == '\t'

/-- The text without blanks at either end. -/
def trim (t : List Char) : List Char := ((t.dropWhile isBlank).reverse.dropWhile isBlank).reverse

/-- The text before the comment: "Comments start with `;`" (R34). -/
def stripComment (t : List Char) : List Char := t.takeWhile (· != ';')

/-- The pieces of a text between the separators `sep`. -/
def splitAt (sep : Char) : List Char → List (List Char)
  | [] => [[]]
  | c :: t =>
    if c == sep then [] :: splitAt sep t
    else match splitAt sep t with
      | [] => [[c]]
      | piece :: rest => (c :: piece) :: rest

/-- The value of a digit, hexadecimal digits included. -/
def digit? (c : Char) : Option Nat :=
  if '0' ≤ c ∧ c ≤ '9' then some (c.toNat - '0'.toNat)
  else if 'a' ≤ c ∧ c ≤ 'f' then some (c.toNat - 'a'.toNat + 10)
  else if 'A' ≤ c ∧ c ≤ 'F' then some (c.toNat - 'A'.toNat + 10)
  else none

/-- The value of a text of digits below `base`, read after a value `acc`. -/
def digits? (base : Nat) (acc : Nat) : List Char → Option Nat
  | [] => some acc
  | c :: t =>
    match digit? c with
    | some d => if d < base then digits? base (base * acc + d) t else none
    | none => none

/-- An operand: "decimal or `0x` hexadecimal" (R34). -/
def number? : List Char → Option Nat
  | [] => none
  | '0' :: 'x' :: [] => none
  | '0' :: 'x' :: t => digits? 16 0 t
  | t => digits? 10 0 t

/-- The operands of a line, "separated by commas" (R34); none where nothing follows the mnemonic. -/
def operands? (t : List Char) : Option (List Nat) :=
  match trim t with
  | [] => some []
  | t' => (splitAt ',' t').mapM fun piece => number? (trim piece)

/-- A pseudo-instruction's name (R35). -/
def pseudo? (name : List Char) : Option Pseudo :=
  if name = ['S', 'H', 'I', 'F', 'T'] then some .shift
  else if name = ['R', 'E', 'V', 'E', 'R', 'S', 'E'] then some .reverse
  else if name = ['T', 'Y', 'P', 'E'] then some .type
  else if name = ['S', 'I', 'Z', 'E'] then some .size
  else if name = ['B', 'R', 'O', 'W', 'S', 'E'] then some .browse
  else if name = ['W', 'H', 'E', 'E', 'L', 'B', 'T', 'N'] then some .wheelBtn
  else if name = ['S', 'Y', 'N', 'C'] then some .sync
  else if name = ['Q', 'U', 'A', 'N', 'T'] then some .quant
  else if name = ['C', 'A', 'P', 'T', 'U', 'R', 'E'] then some .capture
  else none

/-- A mnemonic with its operands (R34). -/
def source? (name : List Char) (ops : List Nat) : Option SourceCommand :=
  match ops with
  | [] =>
    if name = ['D', 'E', 'C', 'O', 'D', 'E'] then some .decode
    else if name = ['W', 'H', 'E', 'E', 'L'] then some .wheel
    else none
  | [i] =>
    if name = ['S', 'T', 'O', 'P'] then some (.stop i)
    else if name = ['S', 'P', 'E', 'C', 'I', 'A', 'L'] then some (.special i)
    else if name = ['C', 'O', 'N', 'T', 'R', 'O', 'L'] then some (.control i)
    else if name = ['K', 'N', 'O', 'B'] then some (.knob i)
    else if name = ['F', 'A', 'D', 'E', 'R'] then some (.fader i)
    else none
  | [row, col] => if name = ['M', 'A', 'T', 'R', 'I', 'X'] then some (.matrix row col) else none
  | _ => none

/-- One command: a pseudo-instruction takes no operand (R35), a mnemonic those R34 gives it. -/
def command? (name : List Char) (ops : List Nat) : Option Instr :=
  match ops, pseudo? name with
  | [], some p => some p.expand
  | _, _ => (source? name ops).bind SourceCommand.assemble

/-- One line: no command (empty, or a comment alone), one command, or refused. -/
def line? (t : List Char) : Option (List Instr) :=
  let body := trim (stripComment t)
  if body.isEmpty then some []
  else
    let name := body.takeWhile fun c => !isBlank c
    match operands? (body.drop name.length) with
    | some ops => (command? name ops).map fun i => [i]
    | none => none

/-- A program text, "One command per line" (R34), as its command words. -/
def program? (t : List Char) : Option (List CommandWord) :=
  ((splitAt '\n' t).mapM line?).map fun ls => ls.flatten.map encode

end Asm
end Sys2Proof
end

