-- ==== Sys2Proof/Machine/Outputs.lean ====
section
/-! DEFINITION. The output ports: the status ports (spec/10_state.md R14) and the parallel decoded-output bundle (R15,
spec/43_parallel_outputs.md R65 to R69). They are functions of the registers, not state. -/

namespace Sys2Proof.Machine

/-- The status ports (R14). -/
structure StatusPorts where
  /-- `status[2:0]` -/
  status : BitVec 3
  /-- `result[11:0]` -/
  result : Sample
  /-- `valid` -/
  valid : Bool
  /-- `fault[2:0]` -/
  fault : BitVec 3
deriving DecidableEq, Repr

/-- Each status port is "continuously equal to its register" (R14). -/
def State.statusPorts (s : State) : StatusPorts := ⟨s.status.code, s.result, s.valid, s.fault⟩

/-- What a consumer may take from `RESULT`: it "must read `RESULT` only together with `STATUS = OK`" (R9). -/
def State.readableResult (s : State) : Option Sample := if s.status = .ok then some s.result else none

/-- The decoded-output bundle (R15). -/
structure Bundle where
  /-- `dec_valid` -/
  valid : Bool
  /-- `dec_matrix[15:0]` -/
  matrix : BitVec 16
  /-- `dec_stop[3:0]` -/
  stop : BitVec 4
  /-- `dec_special[5:0]` -/
  special : BitVec 6
  /-- `dec_control[2:0]` -/
  control : BitVec 3
  /-- `dec_knob[0..3][11:0]` -/
  knob : Vector Sample 4
  /-- `dec_fader[0..3][11:0]` -/
  fader : Vector Sample 4
  /-- `dec_wheel[7:0]` -/
  wheel : Byte
deriving DecidableEq, Repr

/-- A bit group from its bits, bit i being `f i`. -/
def gather : (n : Nat) → (Fin n → Bool) → BitVec n
  | 0, _ => 0#0
  | n + 1, f => BitVec.cons (f (Fin.last n)) (gather n fun i => f i.castSucc)

/-- The bundle under a layout (R65 to R68). -/
def State.bundleWith (l : Layout) (s : State) : Bundle where
  valid := s.valid
  matrix := gather 16 fun i =>
    s.valid && s.rpt.bit (matrixLoc l ⟨i.val / 4, by omega⟩ ⟨i.val % 4, by omega⟩)
  stop := gather 4 fun i => s.valid && s.rpt.bit (stopLoc i)
  special := gather 6 fun i => s.valid && s.rpt.bit (specialLoc i)
  control := gather 3 fun i => s.valid && s.rpt.bit (controlLoc l i)
  knob := Vector.ofFn fun i => if s.valid then s.rpt.analogRaw Config.knobBase i else 0#12
  fader := Vector.ofFn fun i => if s.valid then s.rpt.analogRaw Config.faderBase i else 0#12
  wheel := if s.valid then s.rpt.wheelRaw else 0#8

/-- The bundle (R65 to R68). -/
def State.bundle (s : State) : Bundle := s.bundleWith Config.layout

end Sys2Proof.Machine
end

