-- ==== Sys2Proof/Safety.lean ====
section
/-! DEFINITION. What claims are stated in: a faulted state (R76), a host that keeps its duties (R13, R94), the invariant of
the registers, what of a state can be seen (R6, R14, R15), and the report bits that carry a field (R42). -/

namespace Sys2Proof.Machine

/-- "A model must treat any state with a `FAULT` bit set as faulted" (R76). -/
def State.faulted (s : State) : Bool := s.fault != 0b000#3

/-- The transport can deliver what the strobe presents: `len(rx) ≤ P_RX_MAX` (R13). -/
def Strobe.Deliverable (p : Strobe) : Prop := p.rx.bytes.length ≤ Config.rxMax

/-- The host keeps the frame discipline (R94) on the strobes to come, `held` saying whether a report is held: every word
is legal, and an accessor has an in-range operand and stands after a DECODE that completed OK in its frame. -/
def disciplined : Bool → List Strobe → Bool
  | _, [] => true
  | held, p :: rest =>
    match decode p.cmd with
    | .ok .decode => disciplined p.rx.accepted rest
    | .ok i => held && i.inRange && disciplined held rest
    | .error _ => false

/-- What the rules say holds of the registers between any two commands. -/
structure State.Inv (s : State) : Prop where
  /-- the report space is in canonical form, within addresses 0 to 21 (R17) -/
  canonical : s.rpt.wf
  /-- a held report is one that DECODE accepted (R7, R47) -/
  heldId : s.valid = true → s.rpt.read 0 = Config.reportId
  /-- `RESULT` is 0 unless `STATUS` is OK (R9) -/
  resultZero : s.status ≠ .ok → s.result = 0#12
  /-- a contract violation's `FAULT` bit is set (R76) -/
  faultSet : s.fault &&& s.status.faultBits = s.status.faultBits
  /-- after a non-OK DECODE, or NO_REPORT, no report is held (R7, R73) -/
  notHeld : s.status = .noData ∨ s.status = .tooShort ∨ s.status = .badReportId ∨ s.status = .noReport → s.valid = false
  /-- `STATUS` is NONE only before the first command since reset (R8, R70) -/
  noneAtReset : s.status = .none → s.valid = false ∧ s.fault = 0b000#3
  /-- what the host presents, the transport delivered (R13) -/
  deliverable : ∀ p ∈ s.pending, p.Deliverable

/-- Two states that differ in nothing that can be seen: the same but for `RPT`, which may differ only while `VALID = 0`
(R6: "every read is guarded by `VALID = 1`"). -/
structure State.SameVisible (s u : State) : Prop where
  same : u = { s with rpt := u.rpt }
  held : s.valid = true → s.rpt = u.rpt
  leftCanonical : s.rpt.wf
  rightCanonical : u.rpt.wf

/-- Two outcomes of a step or a run that nothing visible tells apart. -/
def sameOutcome : Host.Outcome State Fault Refusal → Host.Outcome State Fault Refusal → Prop
  | .next s, .next u => s.SameVisible u
  | .fault f, .fault g => f = g
  | .refused q, .refused r => q = r
  | _, _ => False

/-- The bits of report byte a that an accessor or the bundle can read (R42): all but byte 0 (the identifier), bits 1..0 of
byte 3, bit 0 of byte 4, and bits 7..4 of each analog high byte. For the layout of R3. -/
def assignedBits (a : Nat) : Byte :=
  if a = 0 then 0x00
  else if a = Config.specialByte then 0xFC
  else if a = Config.stopCtlByte then 0xFE
  else if Config.knobBase ≤ a ∧ a % 2 = 1 then 0x0F
  else 0xFF

/-- The outcome of a command that completes OK with value v and writes nothing but `STATUS` and `RESULT`: said by the
fields alone, so that a statement does not rest on the operation it is about. -/
def completedOk (v : Sample) (s : State) : Host.Outcome State Fault Refusal :=
  .next { s with status := .ok, result := v }

/-- The outcome of a command that ends in status x with `RESULT` 0 and sets the given bits of `FAULT`, and writes nothing
else (R75), said by the fields alone. -/
def endedInError (x : Status) (bits : BitVec 3) (s : State) : Host.Outcome State Fault Refusal :=
  .next { s with status := x, result := 0#12, fault := s.fault ||| bits }

/-- The word is refused as illegal in every state, whatever the ports hold (R44): the step writes `STATUS`, `RESULT` and
`FAULT[2]` and takes the strobe. -/
def AlwaysIllegal (w : CommandWord) : Prop :=
  ∀ (s : State) (rx : RxPort) (rest : List Strobe),
    step { s with pending := ⟨w, rx⟩ :: rest } = endedInError .illegal 0b100#3 { s with rx := rx, pending := rest }

/-- Every bundle output 0 (R65). -/
def Bundle.zero : Bundle :=
  ⟨false, 0#16, 0#4, 0#6, 0#3, Vector.replicate 4 0#12, Vector.replicate 4 0#12, 0#8⟩

end Sys2Proof.Machine
end

