-- ==== Sys2Proof/Certificates/Slice0/Obligations.lean ====
section
/-! DEFINITION. The statements for the provers. Each docstring names the rules of spec/ it formalises. A result written as
`completedOk v s` or `endedInError x bits s` (Safety.lean) is the whole next state: it is the command's frame as well, every
register and every input not named being that of `s`. -/

open Sys2Proof Sys2Proof.Machine

/-! ### Reset -/

/-- R87: reset, from any state, leaves `VALID = 0`, `STATUS = NONE`, `RESULT = 0`, `FAULT = 0b000`, the bundle all 0, and
`RPT` unreadable: whatever it holds (the model's own choice, log entry 1, is replaced by any r), the bundle is 0 and every
accessor ends in an error that does not depend on it. `State.reset` is such a state. -/
def Obligations.ResetLeavesNothingReadable : Prop :=
  ∀ (s : State) (r : Report),
    let t : State := { s.applyReset with rpt := r }
    t.valid = false ∧ t.status = .none ∧ t.result = 0#12 ∧ t.fault = 0b000#3 ∧ t.bundle = Bundle.zero ∧
    (∀ i : Instr, i ≠ .decode →
      exec i t = endedInError .noReport 0b010#3 t ∨ exec i t = endedInError .outOfRange 0b001#3 t) ∧
    State.reset.applyReset = State.reset

/-- R91, R94: while no report is held and no strobe to come is a DECODE of an acceptable report, every command of a run
completes, none OK, `RESULT` stays 0, and no report is held at the end. -/
def Obligations.NoReportUntilDecodeSucceeds : Prop :=
  ∀ (s : State) (n : Nat), s.valid = false → n ≤ s.pending.length →
    (∀ p ∈ s.pending, ¬ (p.cmd = 0x00#8 ∧ p.rx.avail = true ∧ 22 ≤ p.rx.bytes.length ∧ p.rx.bytes.head? = some 0x01#8)) →
    ∃ t, Sys2Proof.core.run n s = .next t ∧ t.valid = false ∧ t.rpt = s.rpt ∧ t.bundle = Bundle.zero ∧
      (0 < n → t.status ≠ .ok ∧ t.result = 0#12)

/-! ### DECODE -/

/-- R45 to R48, R71, R72: DECODE on every receive port. No data, too short and a wrong identifier are reported in that
order with `VALID <- 0`; otherwise bytes 0 to 21 are latched, all of them, and `VALID <- 1`. `FAULT` is never written. -/
def Obligations.DecodeValidatesAndLatches : Prop :=
  decode 0x00#8 = .ok .decode ∧
  ∀ s : State,
    ((s.rx.avail = false ∨ s.rx.bytes.length = 0) →
      exec .decode s = .next { s with valid := false, status := .noData, result := 0#12 }) ∧
    (s.rx.avail = true → 1 ≤ s.rx.bytes.length → s.rx.bytes.length ≤ 21 →
      exec .decode s = .next { s with valid := false, status := .tooShort, result := 0#12 }) ∧
    (s.rx.avail = true → 22 ≤ s.rx.bytes.length → s.rx.bytes.head? ≠ some 0x01#8 →
      exec .decode s = .next { s with valid := false, status := .badReportId, result := 0#12 }) ∧
    (s.rpt.wf → s.rx.avail = true → 22 ≤ s.rx.bytes.length → s.rx.bytes.head? = some 0x01#8 →
      ∃ r : Report,
        exec .decode s = .next { s with rpt := r, valid := true, status := .ok, result := 0#12 } ∧ r.wf ∧
        (∀ a, a < 22 → some (r.read a) = s.rx.bytes[a]?) ∧
        exec .decode { s with rpt := r, valid := true, status := .ok, result := 0#12 } =
          .next { s with rpt := r, valid := true, status := .ok, result := 0#12 })

/-- R24: DECODE's outcome is that of the first 22 bytes of the receive port. -/
def Obligations.DecodeIgnoresExcessBytes : Prop :=
  ∀ (s : State) (avail : Bool) (bytes : List Byte),
    ∃ t, exec .decode { s with rx := ⟨avail, bytes.take 22⟩ } = .next t ∧
      exec .decode { s with rx := ⟨avail, bytes⟩ } = .next { t with rx := ⟨avail, bytes⟩ }

/-- R77, R93: whatever the block did before, a DECODE gives the same `STATUS`, `RESULT` and `VALID`, and when it completes
OK the same `RPT`. -/
def Obligations.DecodeDoesNotDependOnThePast : Prop :=
  ∀ s u : State, s.rpt.wf → u.rpt.wf → s.rx = u.rx →
    ∃ t v, exec .decode s = .next t ∧ exec .decode u = .next v ∧
      t.status = v.status ∧ t.result = v.result ∧ t.valid = v.valid ∧ (t.status = .ok → t.rpt = v.rpt) ∧
      t.fault = s.fault ∧ v.fault = u.fault

/-! ### The accessors -/

/-- R51: MATRIX row, col completes OK with its bit of byte 1 or 2 when a report is held, and NO_REPORT otherwise; it is
never out of range; a word of its opcode with bit 4 set is illegal. -/
def Obligations.MatrixReportsItsButton : Prop :=
  (∀ (row col : BitVec 2) (s : State),
    (s.valid = true → exec (.matrix row col) s =
      completedOk (if (s.rpt.read (1 + row.toNat % 2)).getLsbD (7 - 4 * (row.toNat / 2) - col.toNat) then 1#12 else 0#12) s) ∧
    (s.valid = false → exec (.matrix row col) s = endedInError .noReport 0b010#3 s) ∧
    decode (0b0010#4 ++ row ++ col) = .ok (.matrix row col)) ∧
  ∀ w : CommandWord, w.extractLsb' 5 3 = 0b001#3 → w.extractLsb' 4 1 ≠ 0#1 → AlwaysIllegal w

/-- R53: STOP i reads bit 7 − i of byte 4 for i in 0 to 3; a larger index is OUT_OF_RANGE whether or not a report is held;
NO_REPORT otherwise; a reserved bit set is illegal. -/
def Obligations.StopReportsItsButton : Prop :=
  (∀ (i : BitVec 3) (s : State),
    (i.toNat < 4 → s.valid = true →
      exec (.stop i) s = completedOk (if (s.rpt.read 4).getLsbD (7 - i.toNat) then 1#12 else 0#12) s) ∧
    (4 ≤ i.toNat → exec (.stop i) s = endedInError .outOfRange 0b001#3 s) ∧
    (i.toNat < 4 → s.valid = false → exec (.stop i) s = endedInError .noReport 0b010#3 s) ∧
    decode (0b01000#5 ++ i) = .ok (.stop i)) ∧
  ∀ w : CommandWord, w.extractLsb' 5 3 = 0b010#3 → w.extractLsb' 3 2 ≠ 0#2 → AlwaysIllegal w

/-- R55: SPECIAL i reads bit 7 − i of byte 3 for i in 0 to 5; 6 and 7 are OUT_OF_RANGE; NO_REPORT otherwise; a reserved
bit set is illegal. -/
def Obligations.SpecialReportsItsButton : Prop :=
  (∀ (i : BitVec 3) (s : State),
    (i.toNat < 6 → s.valid = true →
      exec (.special i) s = completedOk (if (s.rpt.read 3).getLsbD (7 - i.toNat) then 1#12 else 0#12) s) ∧
    (6 ≤ i.toNat → exec (.special i) s = endedInError .outOfRange 0b001#3 s) ∧
    (i.toNat < 6 → s.valid = false → exec (.special i) s = endedInError .noReport 0b010#3 s) ∧
    decode (0b01100#5 ++ i) = .ok (.special i)) ∧
  ∀ w : CommandWord, w.extractLsb' 5 3 = 0b011#3 → w.extractLsb' 3 2 ≠ 0#2 → AlwaysIllegal w

/-- R57: CONTROL i reads bit 3 − i of byte 4 for i in 0 to 2; 3 to 7 are OUT_OF_RANGE; NO_REPORT otherwise; a reserved bit
set is illegal. -/
def Obligations.ControlReportsItsButton : Prop :=
  (∀ (i : BitVec 3) (s : State),
    (i.toNat < 3 → s.valid = true →
      exec (.control i) s = completedOk (if (s.rpt.read 4).getLsbD (3 - i.toNat) then 1#12 else 0#12) s) ∧
    (3 ≤ i.toNat → exec (.control i) s = endedInError .outOfRange 0b001#3 s) ∧
    (i.toNat < 3 → s.valid = false → exec (.control i) s = endedInError .noReport 0b010#3 s) ∧
    decode (0b10000#5 ++ i) = .ok (.control i)) ∧
  ∀ w : CommandWord, w.extractLsb' 5 3 = 0b100#3 → w.extractLsb' 3 2 ≠ 0#2 → AlwaysIllegal w

/-- R60: KNOB i completes with the low nibble of byte 7 + 2i above byte 6 + 2i for i in 0 to 3; 4 to 7 are OUT_OF_RANGE;
NO_REPORT otherwise; a reserved bit set is illegal. -/
def Obligations.KnobReportsItsSample : Prop :=
  (∀ (i : BitVec 3) (s : State),
    (i.toNat < 4 → s.valid = true →
      exec (.knob i) s = completedOk ((s.rpt.read (7 + 2 * i.toNat)).extractLsb' 0 4 ++ s.rpt.read (6 + 2 * i.toNat)) s) ∧
    (4 ≤ i.toNat → exec (.knob i) s = endedInError .outOfRange 0b001#3 s) ∧
    (i.toNat < 4 → s.valid = false → exec (.knob i) s = endedInError .noReport 0b010#3 s) ∧
    decode (0b10100#5 ++ i) = .ok (.knob i)) ∧
  ∀ w : CommandWord, w.extractLsb' 5 3 = 0b101#3 → w.extractLsb' 3 2 ≠ 0#2 → AlwaysIllegal w

/-- R61: FADER i completes with the low nibble of byte 15 + 2i above byte 14 + 2i for i in 0 to 3; 4 to 7 are
OUT_OF_RANGE; NO_REPORT otherwise; a reserved bit set is illegal. -/
def Obligations.FaderReportsItsSample : Prop :=
  (∀ (i : BitVec 3) (s : State),
    (i.toNat < 4 → s.valid = true →
      exec (.fader i) s = completedOk ((s.rpt.read (15 + 2 * i.toNat)).extractLsb' 0 4 ++ s.rpt.read (14 + 2 * i.toNat)) s) ∧
    (4 ≤ i.toNat → exec (.fader i) s = endedInError .outOfRange 0b001#3 s) ∧
    (i.toNat < 4 → s.valid = false → exec (.fader i) s = endedInError .noReport 0b010#3 s) ∧
    decode (0b11000#5 ++ i) = .ok (.fader i)) ∧
  ∀ w : CommandWord, w.extractLsb' 5 3 = 0b110#3 → w.extractLsb' 3 2 ≠ 0#2 → AlwaysIllegal w

/-- R62, R63: WHEEL completes with byte 5, zero-extended, when a report is held, and NO_REPORT otherwise; a reserved bit
set is illegal. -/
def Obligations.WheelReportsItsByte : Prop :=
  (∀ s : State,
    (s.valid = true → exec .wheel s = completedOk ((s.rpt.read 5).setWidth 12) s) ∧
    (s.valid = false → exec .wheel s = endedInError .noReport 0b010#3 s) ∧
    decode 0xE0#8 = .ok .wheel) ∧
  ∀ w : CommandWord, w.extractLsb' 5 3 = 0b111#3 → w.extractLsb' 0 5 ≠ 0#5 → AlwaysIllegal w

/-- R49, R74: of an accessor's two checks the range comes first. An out-of-range operand is OUT_OF_RANGE in every state, an
in-range one NO_REPORT without a report, and with one the accessor completes OK and writes only `STATUS` and `RESULT`.
MATRIX and WHEEL are never out of range; STOP, KNOB and FADER are from index 4, SPECIAL from 6, CONTROL from 3. -/
def Obligations.AccessorChecksRangeThenReport : Prop :=
  (∀ (i : Instr) (s : State), i ≠ .decode →
    (i.inRange = false → exec i s = endedInError .outOfRange 0b001#3 s) ∧
    (i.inRange = true → s.valid = false → exec i s = endedInError .noReport 0b010#3 s) ∧
    (i.inRange = true → s.valid = true → ∃ v, exec i s = completedOk v s)) ∧
  (∀ row col, (Instr.matrix row col).inRange = true) ∧ Instr.wheel.inRange = true ∧
  ∀ k : BitVec 3,
    ((Instr.stop k).inRange = false ↔ 4 ≤ k.toNat) ∧ ((Instr.special k).inRange = false ↔ 6 ≤ k.toNat) ∧
    ((Instr.control k).inRange = false ↔ 3 ≤ k.toNat) ∧ ((Instr.knob k).inRange = false ↔ 4 ≤ k.toNat) ∧
    ((Instr.fader k).inRange = false ↔ 4 ≤ k.toNat)

/-- R64: KNOB and FADER complete with a value in 0 to 4095, WHEEL with one in 0 to 255, in every state with a report held
and for every legal index. -/
def Obligations.AnalogAndWheelStayInRange : Prop :=
  ∀ (s : State) (k : BitVec 3), s.valid = true → k.toNat < 4 →
    (∃ t, exec (.knob k) s = .next t ∧ t.status = .ok ∧ t.result.toNat ≤ 4095) ∧
    (∃ t, exec (.fader k) s = .next t ∧ t.status = .ok ∧ t.result.toNat ≤ 4095) ∧
    (∃ t, exec .wheel s = .next t ∧ t.status = .ok ∧ t.result.toNat ≤ 255)

/-- R13: only DECODE reads the receive port. -/
def Obligations.AccessorsIgnoreReceivePort : Prop :=
  ∀ (i : Instr) (s : State) (p : RxPort), i ≠ .decode →
    ∃ t, exec i s = .next t ∧ exec i { s with rx := p } = .next { t with rx := p }

/-- R22: reads have no side effect: what an accessor answers (`STATUS`, `RESULT`) is the same whether or not another
accessor ran just before it. -/
def Obligations.AccessorsDoNotDisturbEachOther : Prop :=
  ∀ (i j : Instr) (s : State), i ≠ .decode → j ≠ .decode →
    ∃ t u v, exec i s = .next t ∧ exec j t = .next u ∧ exec j s = .next v ∧
      u.status = v.status ∧ u.result = v.result ∧ u.rpt = v.rpt ∧ u.valid = v.valid

/-- R22, R48: a command performed twice leaves what it left the first time, DECODE included. -/
def Obligations.RepeatedCommandChangesNothing : Prop :=
  ∀ (i : Instr) (s : State), s.rpt.wf → ∃ t, exec i s = .next t ∧ exec i t = .next t

/-! ### The report byte space -/

/-- R20: byte j of `MemRead(a, n)` is `RPT[a + j]`. -/
def Obligations.MemReadIsLittleEndian : Prop :=
  ∀ (r : Report) (a n j : Nat), j < n → (r.memRead a n).extractLsb' (8 * j) 8 = r.read (a + j)

/-- R41, R59: the sample of a channel is `(zext_16(hi) << 8 | zext_16(lo)) & 0x0FFF`, which is `{hi[3:0], lo[7:0]}` and, as
a number, lo + 256·(hi mod 16). -/
def Obligations.AnalogSampleIsTwelveBitPair : Prop :=
  ∀ (r : Report) (base : Nat) (k : Fin 4),
    let lo := r.read (base + 2 * k.val)
    let hi := r.read (base + 2 * k.val + 1)
    (r.analogRaw base k).setWidth 16 = (((hi.setWidth 16) <<< 8) ||| lo.setWidth 16) &&& 0x0FFF#16 ∧
    r.analogRaw base k = hi.extractLsb' 0 4 ++ lo ∧
    (r.analogRaw base k).toNat = lo.toNat + 256 * (hi.toNat % 16)

/-- R50: the matrix location, under every legal layout, is a one-to-one map of the 16 buttons onto the 16 bits of bytes 1
and 2; its parts are those of the rule's function; with the values of R3 it is byte 1 + row mod 2, bit 7 − 4·(row div 2) −
col. -/
def Obligations.MatrixMapIsOneToOne : Prop :=
  (∀ l : Layout,
    (∀ r c r' c' : Fin 4, matrixLoc l r c = matrixLoc l r' c' → r = r' ∧ c = c') ∧
    (∀ p : Loc, p.byte.val = 1 ∨ p.byte.val = 2 → ∃ r c, matrixLoc l r c = p) ∧
    (∀ r c : Fin 4,
      ((matrixLoc l r c).byte.val =
        if r.val % 2 = 0 then (if l.matrixEvenRowByte = .byte1 then 1 else 2)
        else (if l.matrixEvenRowByte = .byte1 then 2 else 1)) ∧
      ((matrixLoc l r c).bit.val =
        (if (r.val / 2 = 0 ↔ l.matrixFirstRowNibble = .upper) then 4 else 0) + 3 - c.val))) ∧
  ∀ r c : Fin 4,
    (matrixLoc Config.layout r c).byte.val = 1 + r.val % 2 ∧
    (matrixLoc Config.layout r c).bit.val = 7 - 4 * (r.val / 2) - c.val

/-- R58: under every legal layout the 29 button locations are pairwise distinct, and lie in bytes 1 to 4. -/
def Obligations.ButtonLocationsNeverOverlap : Prop :=
  ∀ (l : Layout) (a b : ButtonId),
    (a.loc l = b.loc l → a = b) ∧ 1 ≤ (a.loc l).byte.val ∧ (a.loc l).byte.val ≤ 4

/-- R42: the unassigned bits, and byte 0, are read by no command and no output: two reports that agree on the assigned
bits of bytes 1 to 21 give the same bundle, and every command then ends with the same `STATUS`, `RESULT`, `VALID` and
`FAULT`. Nor does DECODE check them: two receive ports of one length and identifier are accepted alike. -/
def Obligations.UnassignedBitsAreNeverSeen : Prop :=
  (∀ (s : State) (p q : RxPort), p.avail = q.avail → p.bytes.length = q.bytes.length → p.bytes.head? = q.bytes.head? →
    ∃ t u, exec .decode { s with rx := p } = .next t ∧ exec .decode { s with rx := q } = .next u ∧
      t.status = u.status ∧ t.result = u.result ∧ t.valid = u.valid ∧ t.fault = u.fault) ∧
  ∀ (s : State) (r : Report),
    (∀ a, a < 22 → s.rpt.read a &&& assignedBits a = r.read a &&& assignedBits a) →
    ({ s with rpt := r } : State).bundle = s.bundle ∧
    ∀ i : Instr, ∃ t u, exec i s = .next t ∧ exec i { s with rpt := r } = .next u ∧
      t.status = u.status ∧ t.result = u.result ∧ t.valid = u.valid ∧ t.fault = u.fault

/-- R6, R87: while `VALID = 0` nothing visible depends on `RPT`. Two states that differ only there give runs of any length
that differ only there, with the same status ports and the same bundle throughout. So no claim about what can be seen
depends on the value the model gives `RPT` at reset (log entry 1). -/
def Obligations.UnheldReportIsUnobservable : Prop :=
  ∀ (n : Nat) (s u : State), s.SameVisible u →
    s.statusPorts = u.statusPorts ∧ s.bundle = u.bundle ∧
    sameOutcome (Sys2Proof.core.run n s) (Sys2Proof.core.run n u)

/-! ### The output ports -/

/-- R8, R14: the eight status codes, and the status ports equal to their registers. -/
def Obligations.StatusPortsCarryTheRegisters : Prop :=
  ([Status.none, .ok, .noData, .tooShort, .badReportId, .outOfRange, .noReport, .illegal].map Status.code =
    [0#3, 1#3, 2#3, 3#3, 4#3, 5#3, 6#3, 7#3]) ∧
  (∀ x : Status, Status.ofCode x.code = x) ∧
  ∀ s : State, s.statusPorts.status = s.status.code ∧ s.statusPorts.result = s.result ∧
    s.statusPorts.valid = s.valid ∧ s.statusPorts.fault = s.fault

/-- R65 to R68: every bit of the bundle, from `VALID` and `RPT`, at the byte and bit the report format gives it. -/
def Obligations.BundleShowsTheReport : Prop :=
  ∀ s : State,
    s.bundle.valid = s.valid ∧ (s.valid = false → s.bundle = Bundle.zero) ∧
    (∀ row col : Fin 4, s.bundle.matrix.getLsbD (4 * row.val + col.val) =
      (s.valid && (s.rpt.read (1 + row.val % 2)).getLsbD (7 - 4 * (row.val / 2) - col.val))) ∧
    (∀ i : Fin 4, s.bundle.stop.getLsbD i.val = (s.valid && (s.rpt.read 4).getLsbD (7 - i.val))) ∧
    (∀ i : Fin 6, s.bundle.special.getLsbD i.val = (s.valid && (s.rpt.read 3).getLsbD (7 - i.val))) ∧
    (∀ i : Fin 3, s.bundle.control.getLsbD i.val = (s.valid && (s.rpt.read 4).getLsbD (3 - i.val))) ∧
    (∀ i : Fin 4, s.bundle.knob[i] =
      if s.valid then (s.rpt.read (7 + 2 * i.val)).extractLsb' 0 4 ++ s.rpt.read (6 + 2 * i.val) else 0#12) ∧
    (∀ i : Fin 4, s.bundle.fader[i] =
      if s.valid then (s.rpt.read (15 + 2 * i.val)).extractLsb' 0 4 ++ s.rpt.read (14 + 2 * i.val) else 0#12) ∧
    s.bundle.wheel = if s.valid then s.rpt.read 5 else 0#8

/-- R69: with a report held, every accessor with a legal operand completes OK with the bundle's own value for its field,
and leaves the bundle as it was; so does every other accessor; and the bundle is a function of `VALID` and `RPT` alone. -/
def Obligations.BundleAgreesWithAccessors : Prop :=
  (∀ s : State, s.valid = true →
    (∀ row col : BitVec 2, exec (.matrix row col) s =
      completedOk ((BitVec.ofBool (s.bundle.matrix.getLsbD (4 * row.toNat + col.toNat))).setWidth 12) s) ∧
    (∀ i : BitVec 3, i.toNat < 4 → exec (.stop i) s =
      completedOk ((BitVec.ofBool (s.bundle.stop.getLsbD i.toNat)).setWidth 12) s) ∧
    (∀ i : BitVec 3, i.toNat < 6 → exec (.special i) s =
      completedOk ((BitVec.ofBool (s.bundle.special.getLsbD i.toNat)).setWidth 12) s) ∧
    (∀ i : BitVec 3, i.toNat < 3 → exec (.control i) s =
      completedOk ((BitVec.ofBool (s.bundle.control.getLsbD i.toNat)).setWidth 12) s) ∧
    (∀ (i : BitVec 3) (h : i.toNat < 4), exec (.knob i) s = completedOk (s.bundle.knob[i.toNat]'h) s) ∧
    (∀ (i : BitVec 3) (h : i.toNat < 4), exec (.fader i) s = completedOk (s.bundle.fader[i.toNat]'h) s) ∧
    exec .wheel s = completedOk (s.bundle.wheel.setWidth 12) s) ∧
  (∀ (i : Instr) (s : State), i ≠ .decode → ∃ t, exec i s = .next t ∧ t.bundle = s.bundle) ∧
  ∀ s u : State, s.valid = u.valid → s.rpt = u.rpt → s.bundle = u.bundle

/-! ### Encoding -/

/-- R29 to R31: decoding the word of a command gives the command back, and a word that decodes is the word of its
command. -/
def Obligations.DecodeEncodeAgree : Prop :=
  (∀ i : Instr, decode (encode i) = .ok i) ∧ ∀ (w : CommandWord) (i : Instr), decode w = .ok i → encode i = w

/-- R31: words written from the opcode map, one or more of each row, decode to their commands; words with a reserved bit
set decode to none. -/
def Obligations.TabledWordsDecode : Prop :=
  decode 0b00000000#8 = .ok .decode ∧ decode 0b00101011#8 = .ok (.matrix 2 3) ∧ decode 0b00100100#8 = .ok (.matrix 1 0) ∧
  decode 0b01000011#8 = .ok (.stop 3) ∧ decode 0b01100110#8 = .ok (.special 6) ∧ decode 0b10000001#8 = .ok (.control 1) ∧
  decode 0b10100100#8 = .ok (.knob 4) ∧ decode 0b11000011#8 = .ok (.fader 3) ∧ decode 0b11100000#8 = .ok .wheel ∧
  (decode 0b00011111#8).toOption = none ∧ (decode 0b00110000#8).toOption = none ∧ (decode 0b11100001#8).toOption = none

/-- R31: a word decodes to the operation of the one opcode row that selects it, and to none where none does. -/
def Obligations.OpcodeRowsSelectTheCommand : Prop :=
  ∀ w : CommandWord,
    (decode w).toOption.map Instr.opcode = (opcodeTable.find? fun r => r.selects w).map OpcodeRow.op ∧
    (opcodeTable.filter fun r => r.selects w).length ≤ 1

/-- R32, R44: a word with a reserved bit set is not performed, in any state, DECODE's opcode included; every other word is a
command; 198 of the 256 words are illegal and 58 legal. -/
def Obligations.IllegalWordsAreNotPerformed : Prop :=
  ((List.range 256).filter fun n => (decode (BitVec.ofNat 8 n)).toOption.isNone).length = 198 ∧
  ((List.range 256).filter fun n => (decode (BitVec.ofNat 8 n)).toOption.isSome).length = 58 ∧
  ∀ w : CommandWord,
    let op := (w.extractLsb' 5 3).toNat
    let reservedSet : Prop :=
      ((op = 0 ∨ op = 7) ∧ w.extractLsb' 0 5 ≠ 0#5) ∨ (op = 1 ∧ w.extractLsb' 4 1 ≠ 0#1) ∨
      ((2 ≤ op ∧ op ≤ 6) ∧ w.extractLsb' 3 2 ≠ 0#2)
    (reservedSet → AlwaysIllegal w) ∧ (¬ reservedSet → ∃ i, decode w = .ok i)

/-- R34: the assembler refuses an operand that does not fit its field, and assembles one that does, in range or not, to the
word of R31. -/
def Obligations.AssemblerRefusesWhatDoesNotFit : Prop :=
  (∀ row col : Nat, (SourceCommand.matrix row col).assemble.map encode =
    if row ≤ 3 ∧ col ≤ 3 then some (BitVec.ofNat 8 (0x20 + 4 * row + col)) else none) ∧
  (∀ i : Nat,
    (SourceCommand.stop i).assemble.map encode = (if i ≤ 7 then some (BitVec.ofNat 8 (0x40 + i)) else none) ∧
    (SourceCommand.special i).assemble.map encode = (if i ≤ 7 then some (BitVec.ofNat 8 (0x60 + i)) else none) ∧
    (SourceCommand.control i).assemble.map encode = (if i ≤ 7 then some (BitVec.ofNat 8 (0x80 + i)) else none) ∧
    (SourceCommand.knob i).assemble.map encode = (if i ≤ 7 then some (BitVec.ofNat 8 (0xA0 + i)) else none) ∧
    (SourceCommand.fader i).assemble.map encode = (if i ≤ 7 then some (BitVec.ofNat 8 (0xC0 + i)) else none)) ∧
  SourceCommand.decode.assemble.map encode = some 0x00#8 ∧ SourceCommand.wheel.assemble.map encode = some 0xE0#8

/-- R35: the nine pseudo-instructions and the words they assemble to. -/
def Obligations.PseudoInstructionsAssembleAsListed : Prop :=
  [Pseudo.shift, .reverse, .type, .size, .browse, .wheelBtn, .sync, .quant, .capture].map (fun p => encode p.expand) =
    [0x60#8, 0x61#8, 0x62#8, 0x63#8, 0x64#8, 0x65#8, 0x80#8, 0x81#8, 0x82#8]

/-! ### The step -/

/-- Derived from the step of 40_decode.md section 1 and the command port of 10_state.md section 2: when the strobe's word
decodes to a command, the step is that command's, in the state whose receive port is the one presented with the strobe and
whose strobes to come are the rest. MODEL'S CHOICE: that `withFetchWord` presents such a strobe, before all others and with
the receive port as now presented, is log entry 5 (DESIGN CHOICE), and that the strobes to come are held in State is log
entry 3 (DESIGN CHOICE); no rule of the spec says either. -/
def Obligations.StepRunsTheDecodedCommand : Prop :=
  ∀ (s : State) (w : CommandWord) (i : Instr), decode w = .ok i →
    (∀ (rx : RxPort) (rest : List Strobe),
      step { s with pending := ⟨w, rx⟩ :: rest } = exec i { s with rx := rx, pending := rest }) ∧
    step (s.withFetchWord 8 w.toNat) = exec i s

/-- R1: without a command there is no step. That the model says so by a fault is its own choice (log entry 4). -/
def Obligations.NoStepWithoutACommand : Prop :=
  ∀ s : State, (s.pending = [] ↔ step s = .fault .noCommand) ∧ ∀ q, step s ≠ .refused q

/-- R1, R25: a step takes exactly one strobe, and nothing it does depends on the strobes after it. -/
def Obligations.CommandsSeeNoLaterCommand : Prop :=
  ∀ (s : State) (p : Strobe) (rest rest' : List Strobe),
    ∃ t, step { s with pending := p :: rest } = .next t ∧ t.pending = rest ∧ t.rx = p.rx ∧
      step { s with pending := p :: rest' } = .next { t with pending := rest' }

/-- R70: every command completes, in every state, with one of the statuses the table of R70 gives it. -/
def Obligations.EveryCommandCompletesWithItsStatuses : Prop :=
  ∀ (i : Instr) (s : State), ∃ t, exec i s = .next t ∧
    match i with
    | .decode => t.status ∈ [Status.ok, .noData, .tooShort, .badReportId]
    | .matrix _ _ => t.status ∈ [Status.ok, .noReport]
    | .stop _ => t.status ∈ [Status.ok, .outOfRange, .noReport]
    | .special _ => t.status ∈ [Status.ok, .outOfRange, .noReport]
    | .control _ => t.status ∈ [Status.ok, .outOfRange, .noReport]
    | .knob _ => t.status ∈ [Status.ok, .outOfRange, .noReport]
    | .fader _ => t.status ∈ [Status.ok, .outOfRange, .noReport]
    | .wheel => t.status ∈ [Status.ok, .noReport]

/-- R10, R76, R77: after any step `FAULT` is what it was with the bit of a contract violation added: no bit is ever
cleared, and NO_DATA, TOO_SHORT, BAD_REPORT_ID and OK set none. -/
def Obligations.FaultBitsAreSticky : Prop :=
  ∀ s t : State, step s = .next t →
    t.fault = s.fault ||| (if t.status = .outOfRange then 0b001#3 else if t.status = .noReport then 0b010#3
      else if t.status = .illegal then 0b100#3 else 0b000#3)

/-- R75: the state after an error is the state before it with exactly the writes of the rule. -/
def Obligations.ErrorsArePrecise : Prop :=
  ∀ (s t : State) (p : Strobe) (rest : List Strobe), s.pending = p :: rest → step s = .next t → t.status ≠ .ok →
    t.status ≠ .none ∧
    t = { s with
      rx := p.rx, pending := rest, status := t.status, result := 0#12,
      valid := if p.cmd = 0x00#8 then false else s.valid,
      fault := s.fault ||| (if t.status = .outOfRange then 0b001#3 else if t.status = .noReport then 0b010#3
        else if t.status = .illegal then 0b100#3 else 0b000#3) }

/-- R43: only a legal DECODE writes `VALID` and `RPT`, and it writes `VALID` always, and `RPT` only when it completes
OK. -/
def Obligations.OnlyDecodeWritesValidAndReport : Prop :=
  ∀ (s t : State) (p : Strobe) (rest : List Strobe), s.pending = p :: rest → step s = .next t →
    (p.cmd ≠ 0x00#8 → t.valid = s.valid ∧ t.rpt = s.rpt) ∧
    (p.cmd = 0x00#8 → (t.valid = true ↔ t.status = .ok) ∧ (t.status ≠ .ok → t.rpt = s.rpt))

/-! ### Invariants and runs -/

/-- The invariant of the registers (Safety.lean) holds of the reset state. -/
def Obligations.InvariantHoldsAtReset : Prop := State.reset.Inv

/-- Every step keeps the invariant: canonical report space, a held report carries the identifier, `RESULT` 0 unless OK, the
fault bit of a contract violation set, no report held after a non-OK DECODE. -/
def Obligations.StepKeepsTheInvariant : Prop :=
  ∀ s t : State, s.Inv → step s = .next t → t.Inv

/-- R77, R86: no command stops the block and any command may follow any other: from any state a run of the strobes to come
completes, as many steps as there are strobes, each taking one. -/
def Obligations.EveryQueueOfCommandsRuns : Prop :=
  ∀ (s : State) (n : Nat), n ≤ s.pending.length →
    ∃ t, Sys2Proof.core.run n s = .next t ∧ t.pending = s.pending.drop n

/-- R94, R76: a host that keeps the frame discipline never faults the block: a run of its strobes, from any state, ends
with `FAULT` as it was at the start, so an unfaulted state stays unfaulted. -/
def Obligations.DisciplinedHostNeverFaults : Prop :=
  ∀ (s : State) (n : Nat), disciplined s.valid s.pending = true → n ≤ s.pending.length →
    ∃ t, Sys2Proof.core.run n s = .next t ∧ t.fault = s.fault ∧ disciplined t.valid t.pending = true ∧
      (s.faulted = false → t.faulted = false)
end

