-- ==== Sys2Proof/Laws/Decode.lean ====
section
/-! SUPPORT. The decoder on the 256 command words: its result is the encoder's command, or a reserved bit is set. -/

namespace Sys2Proof

/-- The decoder rejects exactly the words whose reserved bits R44 names. -/
theorem decode_isOk_iff (w : CommandWord) : (decode w).isOk = !illegalWord w := by
  revert w
  decide +revert

end Sys2Proof
end

