-- ==== Sys2Proof/Laws/Report.lean ====
section
/-! SUPPORT. The report byte space: a read after a write, the canonical form kept by every write and determined by the bytes
read, and the values the operand forms read from it. -/

namespace Sys2Proof.Machine

@[simp] theorem Report.read_nil (a : Nat) : Report.read [] a = Report.unlisted := rfl

@[simp] theorem Report.read_cons (c : Host.Cell) (r : Report) (a : Nat) :
    Report.read (c :: r) a = if c.1 = a then c.2 else Report.read r a := rfl

@[simp] theorem Report.write_nil (a : Nat) (v : Byte) :
    Report.write [] a v = if v = Report.unlisted then [] else [(a, v)] := rfl

theorem Report.write_cons (c : Host.Cell) (r : Report) (a : Nat) (v : Byte) :
    Report.write (c :: r) a v =
      if a < c.1 then (if v = Report.unlisted then c :: r else (a, v) :: c :: r)
      else if a = c.1 then (if v = Report.unlisted then r else (a, v) :: r)
      else c :: Report.write r a v := rfl

/-- The cells of a report rise strictly in address. -/
abbrev Report.Sorted (r : Report) : Prop := r.Pairwise fun c d => c.1 < d.1

/-- An address below every cell is unlisted. -/
theorem Report.read_below {r : Report} {a : Nat} (h : ∀ c ∈ r, a < c.1) : r.read a = Report.unlisted := by
  induction r with
  | nil => rfl
  | cons c r ih =>
    have hc := h c (by simp)
    rw [Report.read_cons, if_neg (by omega)]
    exact ih fun d hd => h d (by simp [hd])

/-- Reading after a write: the written byte at its address, the old byte elsewhere. -/
theorem Report.read_write {r : Report} (hr : r.Sorted) (a : Nat) (v : Byte) (b : Nat) :
    (r.write a v).read b = if b = a then v else r.read b := by
  induction r with
  | nil =>
    rw [Report.write_nil]
    split <;> split <;> simp_all
    omega
  | cons c r ih =>
    obtain ⟨hc, hr'⟩ := List.pairwise_cons.mp hr
    have hbelow : b ≤ c.1 → Report.read r b = Report.unlisted := fun h =>
      Report.read_below fun d hd => Nat.lt_of_le_of_lt h (hc d hd)
    rw [Report.write_cons]
    by_cases hv : v = Report.unlisted
    · subst hv
      split
      · by_cases hb : b = a
        · have h1 : ¬ c.1 = b := by omega
          rw [if_pos rfl, if_pos hb, Report.read_cons, if_neg h1, hbelow (by omega)]
        · rw [if_pos rfl, if_neg hb]
      · split
        · rename_i hac
          by_cases hb : b = a
          · rw [if_pos rfl, if_pos hb, hbelow (by omega)]
          · have h1 : ¬ c.1 = b := by omega
            rw [if_pos rfl, if_neg hb, Report.read_cons, if_neg h1]
        · rw [Report.read_cons, ih hr', Report.read_cons]
          by_cases h1 : c.1 = b
          · have h2 : ¬ b = a := by omega
            rw [if_pos h1, if_neg h2, if_pos h1]
          · rw [if_neg h1, if_neg h1]
    · split
      · rw [Report.read_cons]
        by_cases hb : a = b
        · rw [if_pos hb, if_pos hb.symm]
        · rw [if_neg hb, if_neg (Ne.symm hb)]
      · split
        · rename_i hac
          rw [Report.read_cons]
          by_cases hb : a = b
          · rw [if_pos hb, if_pos hb.symm]
          · have h1 : ¬ c.1 = b := by omega
            rw [if_neg hb, if_neg (Ne.symm hb), Report.read_cons, if_neg h1]
        · rw [Report.read_cons, ih hr', Report.read_cons]
          by_cases h1 : c.1 = b
          · have h2 : ¬ b = a := by omega
            rw [if_pos h1, if_neg h2, if_pos h1]
          · rw [if_neg h1, if_neg h1]

/-- A cell of a written report is the written one or an old one. -/
theorem Report.mem_write {r : Report} {a : Nat} {v : Byte} {c : Host.Cell} (h : c ∈ r.write a v) :
    (c = (a, v) ∧ v ≠ Report.unlisted) ∨ c ∈ r := by
  induction r with
  | nil =>
    rw [Report.write_nil] at h
    split at h <;> simp_all
  | cons d r ih =>
    rw [Report.write_cons] at h
    split at h
    · split at h <;> simp_all
    · split at h
      · split at h
        · exact .inr (List.mem_cons_of_mem _ h)
        · rcases List.mem_cons.mp h with rfl | h
          · exact .inl ⟨rfl, ‹_›⟩
          · exact .inr (List.mem_cons_of_mem _ h)
      · rcases List.mem_cons.mp h with rfl | h
        · exact .inr List.mem_cons_self
        · exact (ih h).imp_right (List.mem_cons_of_mem _)

/-- A write keeps the cells in order. -/
theorem Report.sorted_write {r : Report} (hr : r.Sorted) (a : Nat) (v : Byte) : (r.write a v).Sorted := by
  induction r with
  | nil =>
    rw [Report.write_nil]
    split <;> simp
  | cons c r ih =>
    obtain ⟨hc, hr'⟩ := List.pairwise_cons.mp hr
    rw [Report.write_cons]
    split
    · split
      · exact hr
      · refine List.pairwise_cons.mpr ⟨fun d hd => ?_, hr⟩
        rcases List.mem_cons.mp hd with rfl | hd
        · assumption
        · exact Nat.lt_trans ‹_› (hc d hd)
    · split
      · split
        · exact hr'
        · exact List.pairwise_cons.mpr ⟨fun d hd => by have := hc d hd; simp only; omega, hr'⟩
      · refine List.pairwise_cons.mpr ⟨fun d hd => ?_, ih hr'⟩
        rcases Report.mem_write hd with ⟨rfl, -⟩ | hd
        · simp only; omega
        · exact hc d hd

/-- A write inside the report space keeps the canonical form. -/
theorem Report.wf_write {r : Report} (hr : r.wf) {a : Nat} (ha : a < Config.reportLen) (v : Byte) : (r.write a v).wf := by
  refine ⟨Report.sorted_write hr.1 a v, fun c hc => ?_⟩
  rcases Report.mem_write hc with ⟨rfl, hv⟩ | hc
  · exact ⟨ha, hv⟩
  · exact hr.2 c hc

/-- A wide write inside the report space keeps the canonical form. -/
theorem Report.wf_memWrite {r : Report} (hr : r.wf) {a : Nat} {vs : List Byte} (ha : a + vs.length ≤ Config.reportLen) :
    (r.memWrite a vs).wf := by
  induction vs generalizing r a with
  | nil => exact hr
  | cons v vs ih =>
    simp only [List.length_cons] at ha
    exact ih (Report.wf_write hr (by omega) v) (by omega)

theorem Report.sorted_memWrite {r : Report} (hr : r.Sorted) (a : Nat) (vs : List Byte) : (r.memWrite a vs).Sorted := by
  induction vs generalizing r a with
  | nil => exact hr
  | cons v vs ih => exact ih (Report.sorted_write hr a v) _

/-- Reading after a wide write: byte j of the value at address a + j, the old byte elsewhere. -/
theorem Report.read_memWrite {r : Report} (hr : r.Sorted) (a : Nat) (vs : List Byte) (b : Nat) :
    (r.memWrite a vs).read b = if h : a ≤ b ∧ b < a + vs.length then vs[b - a] else r.read b := by
  induction vs generalizing r a with
  | nil =>
    have : ¬ (a ≤ b ∧ b < a + ([] : List Byte).length) := by simp
    rw [dif_neg this]; rfl
  | cons v vs ih =>
    show ((r.write a v).memWrite (a + 1) vs).read b = _
    rw [ih (Report.sorted_write hr a v), Report.read_write hr]
    by_cases hb : b = a
    · subst hb
      rw [dif_neg (by omega), dif_pos (by simp)]
      simp
    · by_cases hin : a + 1 ≤ b ∧ b < a + 1 + vs.length
      · rw [dif_pos hin, dif_pos (by simp only [List.length_cons]; omega)]
        have : b - a = (b - (a + 1)) + 1 := by omega
        simp [this]
      · rw [dif_neg hin, dif_neg (by simp only [List.length_cons]; omega), if_neg hb]

/-- A canonical report lists no address outside the report space. -/
theorem Report.read_outside {r : Report} (hr : r.wf) {a : Nat} (ha : Config.reportLen ≤ a) :
    r.read a = Report.unlisted := by
  obtain ⟨-, h⟩ := hr
  induction r with
  | nil => rfl
  | cons c r ih =>
    have hc := (h c (by simp)).1
    rw [Report.read_cons, if_neg (by omega)]
    exact ih fun d hd => h d (by simp [hd])

/-- In canonical form equal bytes are equal data. -/
theorem Report.ext_read {r q : Report} (hr : r.wf) (hq : q.wf) (h : ∀ a, a < Config.reportLen → r.read a = q.read a) :
    r = q := by
  have h' : ∀ a, r.read a = q.read a := fun a => by
    by_cases ha : a < Config.reportLen
    · exact h a ha
    · rw [Report.read_outside hr (by omega), Report.read_outside hq (by omega)]
  clear h
  induction r generalizing q with
  | nil =>
    cases q with
    | nil => rfl
    | cons d q =>
      have h1 := h' d.1
      simp only [Report.read_nil, Report.read_cons, if_true] at h1
      exact absurd h1.symm (hq.2 d (by simp)).2
  | cons c r ih =>
    cases q with
    | nil =>
      have h1 := h' c.1
      simp only [Report.read_nil, Report.read_cons, if_true] at h1
      exact absurd h1 (hr.2 c (by simp)).2
    | cons d q =>
      obtain ⟨hrc, hrs⟩ := List.pairwise_cons.mp hr.1
      obtain ⟨hqd, hqs⟩ := List.pairwise_cons.mp hq.1
      have hle : ∀ {x y : Host.Cell} {l : Report}, y.2 ≠ Report.unlisted → (∀ e ∈ l, x.1 < e.1) →
          Report.read (x :: l) y.1 = y.2 → x.1 ≤ y.1 := by
        intro x y l hy hl hxy
        by_contra hlt
        rw [Report.read_cons, if_neg (by omega), Report.read_below fun e he => by have := hl e he; omega] at hxy
        exact hy hxy.symm
      have h1 : c.1 ≤ d.1 := hle (hq.2 d (by simp)).2 hrc (by rw [h']; simp)
      have h2 : d.1 ≤ c.1 := hle (hr.2 c (by simp)).2 hqd (by rw [← h']; simp)
      have hk : c.1 = d.1 := Nat.le_antisymm h1 h2
      have hv : c.2 = d.2 := by simpa [hk] using h' c.1
      have hcd : c = d := Prod.ext hk hv
      subst hcd
      refine congrArg (c :: ·) (ih ⟨hrs, fun e he => hr.2 e (by simp [he])⟩ ⟨hqs, fun e he => hq.2 e (by simp [he])⟩ ?_)
      intro a
      by_cases ha : c.1 = a
      · subst ha
        rw [Report.read_below hrc, Report.read_below hqd]
      · have := h' a
        rwa [Report.read_cons, Report.read_cons, if_neg ha, if_neg ha] at this

/-! ### What the operand forms read -/

theorem Report.memRead_zero (r : Report) (a : Nat) : r.memRead a 0 = 0#0 := rfl

theorem Report.memRead_succ (r : Report) (a n : Nat) : r.memRead a (n + 1) = r.memRead (a + 1) n ++ r.read a := rfl

/-- A two-byte read: the byte at the lower address is the low byte (R19). -/
theorem Report.memRead_two (r : Report) (a : Nat) : r.memRead a 2 = (r.read (a + 1) ++ r.read a : BitVec 16) := by
  show ((0#0 ++ r.read (a + 1) : BitVec 8) ++ r.read a : BitVec 16) = _
  rw [BitVec.zero_width_append]
  rfl

theorem Report.wheelRaw_eq (r : Report) : r.wheelRaw = r.read 5 := by
  show ((0#0 ++ r.read 5 : BitVec 8) &&& 0xFF#8) = _
  generalize r.read 5 = b
  revert b
  decide

/-- The sample of a channel is the low nibble of the high byte above the low byte (R41). -/
theorem Report.analogRaw_eq (r : Report) (base : Nat) (k : Fin 4) :
    r.analogRaw base k = (r.read (base + 2 * k.val + 1)).extractLsb' 0 4 ++ r.read (base + 2 * k.val) := by
  unfold Report.analogRaw
  rw [Report.memRead_two]
  generalize r.read (base + 2 * k.val + 1) = hi
  generalize r.read (base + 2 * k.val) = lo
  apply BitVec.eq_of_getLsbD_eq
  intro i hi'
  have : (Config.analogMask).getLsbD i = decide (i < 12) := by
    have h : ∀ j : Fin 12, Config.analogMask.getLsbD j.val = true := by decide
    have hi12 : i < 12 := hi'
    simpa [hi12] using h ⟨i, hi12⟩
  simp only [BitVec.getLsbD_setWidth, BitVec.getLsbD_and, BitVec.getLsbD_append, this, hi', BitVec.getLsbD_extractLsb']
  by_cases h8 : i < 8
  · simp [h8]
  · have hi12 : i < 12 := hi'
    have : i - 8 < 4 := by omega
    simp [h8, this]

@[simp] theorem buttonResult_eq (b : Bool) : buttonResult b = if b then 1#12 else 0#12 := by
  cases b <;> rfl

end Sys2Proof.Machine
end

