-- ==== Sys2Proof/Laws/State.lean ====
section
/-! SUPPORT. One lemma per field per update of the state: `complete`, `raise` and `applyReset`, each true by rfl, so that no
later proof unfolds a record update. -/

namespace Sys2Proof.Machine

/-! ### `complete` -/

@[simp] theorem State.complete_rpt (v : Sample) (s : State) : (s.complete v).rpt = s.rpt := rfl
@[simp] theorem State.complete_valid (v : Sample) (s : State) : (s.complete v).valid = s.valid := rfl
@[simp] theorem State.complete_status (v : Sample) (s : State) : (s.complete v).status = .ok := rfl
@[simp] theorem State.complete_result (v : Sample) (s : State) : (s.complete v).result = v := rfl
@[simp] theorem State.complete_fault (v : Sample) (s : State) : (s.complete v).fault = s.fault := rfl
@[simp] theorem State.complete_rx (v : Sample) (s : State) : (s.complete v).rx = s.rx := rfl
@[simp] theorem State.complete_pending (v : Sample) (s : State) : (s.complete v).pending = s.pending := rfl

/-! ### `raise` -/

@[simp] theorem State.raise_rpt (x : Status) (s : State) : (s.raise x).rpt = s.rpt := rfl
@[simp] theorem State.raise_valid (x : Status) (s : State) : (s.raise x).valid = s.valid := rfl
@[simp] theorem State.raise_status (x : Status) (s : State) : (s.raise x).status = x := rfl
@[simp] theorem State.raise_result (x : Status) (s : State) : (s.raise x).result = 0#12 := rfl
@[simp] theorem State.raise_fault (x : Status) (s : State) : (s.raise x).fault = s.fault ||| x.faultBits := rfl
@[simp] theorem State.raise_rx (x : Status) (s : State) : (s.raise x).rx = s.rx := rfl
@[simp] theorem State.raise_pending (x : Status) (s : State) : (s.raise x).pending = s.pending := rfl

/-! ### `applyReset` -/

@[simp] theorem State.applyReset_rpt (s : State) : (s.applyReset).rpt = [] := rfl
@[simp] theorem State.applyReset_valid (s : State) : (s.applyReset).valid = false := rfl
@[simp] theorem State.applyReset_status (s : State) : (s.applyReset).status = .none := rfl
@[simp] theorem State.applyReset_result (s : State) : (s.applyReset).result = 0#12 := rfl
@[simp] theorem State.applyReset_fault (s : State) : (s.applyReset).fault = 0b000#3 := rfl
@[simp] theorem State.applyReset_rx (s : State) : (s.applyReset).rx = s.rx := rfl
@[simp] theorem State.applyReset_pending (s : State) : (s.applyReset).pending = s.pending := rfl

/-! ### `takeStrobe` -/

theorem State.takeStrobe_eq_none_iff (s : State) : s.takeStrobe = none ↔ s.pending = [] := by
  unfold State.takeStrobe
  split <;> simp_all

theorem State.takeStrobe_cons {s : State} {p : Strobe} {rest : List Strobe} (h : s.pending = p :: rest) :
    s.takeStrobe = some (p.cmd, { s with rx := p.rx, pending := rest }) := by
  simp only [State.takeStrobe, h]

end Sys2Proof.Machine
end

