-- ==== Sys2Proof/Laws/Ops.lean ====
section
/-! SUPPORT. What each shared operation can do, said once: the accessor prologue (R49), the validation of a receive port
(R45 to R47), and DECODE (R48). -/

namespace Sys2Proof.Machine

/-! ### The prologue -/

/-- The prologue: OUT_OF_RANGE first, then NO_REPORT, then the access. -/
theorem prologue_spec (g : Group) (index : Nat) (s : State) (access : Fin g.limit → State) :
    (g.limit ≤ index ∧ prologue g index s access = s.raise .outOfRange) ∨
    (index < g.limit ∧ s.valid = false ∧ prologue g index s access = s.raise .noReport) ∨
    ∃ h : index < g.limit, s.valid = true ∧ prologue g index s access = access ⟨index, h⟩ := by
  unfold prologue
  split
  · split
    · exact .inr (.inr ⟨‹_›, ‹_›, rfl⟩)
    · exact .inr (.inl ⟨‹_›, Bool.eq_false_iff.mpr ‹_›, rfl⟩)
  · exact .inl ⟨Nat.le_of_not_lt ‹_›, rfl⟩

theorem prologue_outOfRange {g : Group} {index : Nat} (h : g.limit ≤ index) (s : State)
    (access : Fin g.limit → State) : prologue g index s access = s.raise .outOfRange := by
  rw [prologue, dif_neg (Nat.not_lt.mpr h)]

theorem prologue_noReport {g : Group} {index : Nat} (h : index < g.limit) {s : State} (hv : s.valid = false)
    (access : Fin g.limit → State) : prologue g index s access = s.raise .noReport := by
  rw [prologue, dif_pos h, hv]
  rfl

theorem prologue_access {g : Group} {index : Nat} (h : index < g.limit) {s : State} (hv : s.valid = true)
    (access : Fin g.limit → State) : prologue g index s access = access ⟨index, h⟩ := by
  rw [prologue, dif_pos h, hv]
  rfl

/-! ### Validation -/

theorem RxPort.noData_iff (p : RxPort) : p.noData = true ↔ p.avail = false ∨ p.bytes.length = 0 := by
  simp [RxPort.noData]

theorem RxPort.tooShort_iff (p : RxPort) :
    p.tooShort = true ↔ p.avail = true ∧ 1 ≤ p.bytes.length ∧ p.bytes.length ≤ 21 := by
  simp only [RxPort.tooShort, RxPort.noData, Config.reportLen, Bool.and_eq_true, Bool.not_eq_true', Bool.or_eq_false_iff,
    Bool.not_eq_false', beq_eq_false_iff_ne, decide_eq_true_eq]
  constructor
  · rintro ⟨⟨h1, h2⟩, h3⟩
    exact ⟨h1, by omega, by omega⟩
  · rintro ⟨h1, h2, h3⟩
    exact ⟨⟨h1, by omega⟩, by omega⟩

theorem RxPort.badReportId_iff (p : RxPort) :
    p.badReportId = true ↔ 22 ≤ p.bytes.length ∧ p.bytes.head? ≠ some 0x01#8 := by
  simp [RxPort.badReportId, Config.reportId]

/-- The refusals of DECODE: one of three statuses, each under the condition R48 gives it, or none. -/
theorem RxPort.refusal_spec (p : RxPort) :
    (p.refusal = some .noData ∧ (p.avail = false ∨ p.bytes.length = 0)) ∨
    (p.refusal = some .tooShort ∧ p.avail = true ∧ 1 ≤ p.bytes.length ∧ p.bytes.length ≤ 21) ∨
    (p.refusal = some .badReportId ∧ p.avail = true ∧ 22 ≤ p.bytes.length ∧ p.bytes.head? ≠ some 0x01#8) ∨
    (p.refusal = none ∧ p.avail = true ∧ 22 ≤ p.bytes.length ∧ p.bytes.head? = some 0x01#8) := by
  unfold RxPort.refusal
  by_cases h1 : p.noData = true
  · exact .inl ⟨if_pos h1, p.noData_iff.mp h1⟩
  rw [if_neg h1]
  by_cases h2 : p.tooShort = true
  · exact .inr (.inl ⟨if_pos h2, p.tooShort_iff.mp h2⟩)
  rw [if_neg h2]
  rw [RxPort.noData_iff, not_or, Bool.not_eq_false] at h1
  rw [RxPort.tooShort_iff] at h2
  have hlen : 22 ≤ p.bytes.length := by
    obtain ⟨ha, hl⟩ := h1
    by_contra h
    exact h2 ⟨ha, by omega, by omega⟩
  by_cases h3 : p.badReportId = true
  · exact .inr (.inr (.inl ⟨if_pos h3, h1.1, p.badReportId_iff.mp h3⟩))
  · refine .inr (.inr (.inr ⟨if_neg h3, h1.1, hlen, ?_⟩))
    rw [RxPort.badReportId_iff] at h3
    by_contra h
    exact h3 ⟨hlen, h⟩

theorem RxPort.accepted_iff (p : RxPort) :
    p.accepted = true ↔ p.avail = true ∧ 22 ≤ p.bytes.length ∧ p.bytes.head? = some 0x01#8 := by
  unfold RxPort.accepted
  rcases p.refusal_spec with ⟨h, h1⟩ | ⟨h, h1, h2, h3⟩ | ⟨h, h1, h2, h3⟩ | ⟨h, h1⟩ <;> rw [h]
  · simp only [Option.isNone_some, Bool.false_eq_true, false_iff, not_and]
    rintro ha hl -
    rcases h1 with h1 | h1
    · simp [h1] at ha
    · omega
  · simp only [Option.isNone_some, Bool.false_eq_true, false_iff, not_and]
    omega
  · simp only [Option.isNone_some, Bool.false_eq_true, false_iff, not_and]
    exact fun _ _ => h3
  · exact iff_of_true rfl h1

/-! ### DECODE -/

theorem execDecode_refused {s : State} {x : Status} (h : s.rx.refusal = some x) :
    execDecode s = .next (State.raise x { s with valid := false }) := by
  rw [execDecode, h]

theorem execDecode_accepted {s : State} (h : s.rx.refusal = none) :
    execDecode s =
      .next (State.complete 0#12 { s with rpt := s.rpt.memWrite 0 (s.rx.bytes.take 22), valid := true }) := by
  rw [execDecode, h]

/-- DECODE: one of the three refusals, or the latched report. -/
theorem execDecode_spec (s : State) :
    (∃ x, (x = .noData ∨ x = .tooShort ∨ x = .badReportId) ∧ s.rx.refusal = some x ∧
      execDecode s = .next (State.raise x { s with valid := false })) ∨
    (s.rx.refusal = none ∧ execDecode s =
      .next (State.complete 0#12 { s with rpt := s.rpt.memWrite 0 (s.rx.bytes.take 22), valid := true })) := by
  rcases s.rx.refusal_spec with ⟨h, -⟩ | ⟨h, -⟩ | ⟨h, -⟩ | ⟨h, -⟩
  · exact .inl ⟨_, .inl rfl, h, execDecode_refused h⟩
  · exact .inl ⟨_, .inr (.inl rfl), h, execDecode_refused h⟩
  · exact .inl ⟨_, .inr (.inr rfl), h, execDecode_refused h⟩
  · exact .inr ⟨h, execDecode_accepted h⟩

/-- What DECODE latches: byte a of the receive port at address a. -/
theorem read_latched {r : Report} (hr : r.Sorted) {bytes : List Byte} (hlen : 22 ≤ bytes.length) {a : Nat} (ha : a < 22) :
    some ((r.memWrite 0 (bytes.take 22)).read a) = bytes[a]? := by
  have hl : (bytes.take 22).length = 22 := by simp [hlen]
  have ha' : a < bytes.length := by omega
  rw [Report.read_memWrite hr, dif_pos (by omega)]
  simp [List.getElem?_eq_getElem ha']

theorem wf_latched {r : Report} (hr : r.wf) (bytes : List Byte) : (r.memWrite 0 (bytes.take 22)).wf :=
  Report.wf_memWrite hr (by simp)

/-- The latched report does not depend on the report held before. -/
theorem latched_eq {r q : Report} (hr : r.wf) (hq : q.wf) {bytes : List Byte} (hlen : 22 ≤ bytes.length) :
    r.memWrite 0 (bytes.take 22) = q.memWrite 0 (bytes.take 22) := by
  refine Report.ext_read (wf_latched hr bytes) (wf_latched hq bytes) fun a ha => ?_
  have h1 := read_latched hr.1 hlen ha
  have h2 := read_latched hq.1 hlen ha
  exact Option.some.inj (h1.trans h2.symm)

end Sys2Proof.Machine
end

