-- ==== Sys2Proof/Laws/Outputs.lean ====
section
/-! SUPPORT. The bundle, bit by bit. -/

namespace Sys2Proof.Machine

/-- Bit i of a gathered group is the i-th bit given. -/
@[simp] theorem getLsbD_gather {n : Nat} (f : Fin n → Bool) (i : Fin n) : (gather n f).getLsbD i.val = f i := by
  induction n with
  | zero => exact i.elim0
  | succ n ih =>
    show (BitVec.cons _ _).getLsbD i.val = _
    rw [BitVec.getLsbD_cons]
    by_cases h : i.val = n
    · rw [if_pos h]
      exact congrArg f (Fin.ext h.symm)
    · rw [if_neg h]
      exact ih (fun j => f j.castSucc) ⟨i.val, by omega⟩

/-- A group of bits is determined by its bits. -/
theorem gather_ext {n : Nat} {f : Fin n → Bool} {w : BitVec n} (h : ∀ i : Fin n, w.getLsbD i.val = f i) :
    gather n f = w := by
  refine BitVec.eq_of_getLsbD_eq fun i hi => ?_
  rw [h ⟨i, hi⟩]
  exact getLsbD_gather f ⟨i, hi⟩

/-- A group with no bit set is 0. -/
theorem gather_false (n : Nat) : gather n (fun _ => false) = 0#n := gather_ext fun _ => by simp

theorem bundle_valid (s : State) : s.bundle.valid = s.valid := rfl

theorem bundle_matrix (s : State) : s.bundle.matrix = gather 16 fun i =>
    s.valid && s.rpt.bit (matrixLoc Config.layout ⟨i.val / 4, by omega⟩ ⟨i.val % 4, by omega⟩) := rfl

theorem bundle_stop (s : State) : s.bundle.stop = gather 4 fun i => s.valid && s.rpt.bit (stopLoc i) := rfl

theorem bundle_special (s : State) : s.bundle.special = gather 6 fun i => s.valid && s.rpt.bit (specialLoc i) := rfl

theorem bundle_control (s : State) :
    s.bundle.control = gather 3 fun i => s.valid && s.rpt.bit (controlLoc Config.layout i) := rfl

theorem bundle_knob (s : State) :
    s.bundle.knob = Vector.ofFn fun i => if s.valid then s.rpt.analogRaw Config.knobBase i else 0#12 := rfl

theorem bundle_fader (s : State) :
    s.bundle.fader = Vector.ofFn fun i => if s.valid then s.rpt.analogRaw Config.faderBase i else 0#12 := rfl

theorem bundle_wheel (s : State) : s.bundle.wheel = if s.valid then s.rpt.wheelRaw else 0#8 := rfl

/-- The bundle depends on the registers `VALID` and `RPT` alone (R69). -/
theorem bundle_congr {s u : State} (hv : s.valid = u.valid) (hr : s.rpt = u.rpt) : s.bundle = u.bundle := by
  simp only [State.bundle, State.bundleWith, hv, hr]

end Sys2Proof.Machine
end

