-- ==== Sys2Proof/Laws/PerInstr.lean ====
section
/-! SUPPORT. The statements made per instruction: family `RoundTrip`, decoding the word of a command gives the command back
(R29 to R31). -/

namespace Sys2Proof.Laws.RoundTrip

/-- Decoding the command's word gives the command back. -/
def Statement (i : Instr) : Prop := Sys2Proof.decode (encode i) = .ok i

theorem decode : Statement .decode := by unfold Statement; decide
theorem matrix (row col : BitVec 2) : Statement (.matrix row col) := by
  unfold Statement
  revert row col
  decide
theorem stop (index : BitVec 3) : Statement (.stop index) := by
  unfold Statement
  revert index
  decide
theorem special (index : BitVec 3) : Statement (.special index) := by
  unfold Statement
  revert index
  decide
theorem control (index : BitVec 3) : Statement (.control index) := by
  unfold Statement
  revert index
  decide
theorem knob (index : BitVec 3) : Statement (.knob index) := by
  unfold Statement
  revert index
  decide
theorem fader (index : BitVec 3) : Statement (.fader index) := by
  unfold Statement
  revert index
  decide
theorem wheel : Statement .wheel := by unfold Statement; decide

end Sys2Proof.Laws.RoundTrip
end

