-- ==== Sys2Proof/Laws/Step.lean ====
section
/-! SUPPORT. What a step can do, said once, and how a run takes its first step. -/

namespace Sys2Proof.Machine

theorem step_nil {s : State} (h : s.pending = []) : step s = .fault .noCommand := by
  rw [step, (State.takeStrobe_eq_none_iff s).mpr h]

/-- A step on a legal word is the command's. -/
theorem step_legal {s : State} {p : Strobe} {rest : List Strobe} (h : s.pending = p :: rest) {i : Instr}
    (hi : decode p.cmd = .ok i) : step s = exec i { s with rx := p.rx, pending := rest } := by
  rw [step, State.takeStrobe_cons h]
  simp only [hi]

/-- A step on a word the decoder rejects is the illegal command's. -/
theorem step_illegal {s : State} {p : Strobe} {rest : List Strobe} (h : s.pending = p :: rest) {e : IllegalWord}
    (he : decode p.cmd = .error e) :
    step s = .next (State.raise .illegal { s with rx := p.rx, pending := rest }) := by
  rw [step, State.takeStrobe_cons h]
  simp only [he]
  rfl

/-- A step: no strobe, an illegal word, or a command. -/
theorem step_cases (s : State) :
    (s.pending = [] ∧ step s = .fault .noCommand) ∨
    ∃ p rest, s.pending = p :: rest ∧
      ((∃ e, decode p.cmd = .error e ∧ step s = .next (State.raise .illegal { s with rx := p.rx, pending := rest })) ∨
       ∃ i, decode p.cmd = .ok i ∧ step s = exec i { s with rx := p.rx, pending := rest }) := by
  cases h : s.pending with
  | nil => exact .inl ⟨rfl, step_nil h⟩
  | cons p rest =>
    refine .inr ⟨p, rest, rfl, ?_⟩
    cases hd : decode p.cmd with
    | error e => exact .inl ⟨e, rfl, step_illegal h hd⟩
    | ok i => exact .inr ⟨i, rfl, step_legal h hd⟩

theorem run_zero (s : State) : Sys2Proof.core.run 0 s = .next s := rfl

/-- A run's first step, for any machine. -/
theorem run_succ_of (M : Host.Core) {s t : M.State} (h : M.step s = .next t) (n : Nat) :
    M.run (n + 1) s = M.run n t := by
  simp only [Host.Core.run, h]

/-- A run's first step. -/
theorem run_succ {s t : State} (h : step s = .next t) (n : Nat) :
    Sys2Proof.core.run (n + 1) s = Sys2Proof.core.run n t :=
  run_succ_of Sys2Proof.core h n

end Sys2Proof.Machine
end

