-- ==== Sys2Proof/Tests/Slice0.lean ====
section
/-! SUPPORT. Tests on fixed values, from the vectors of spec/95_test_vectors.md (V<n>) and the encodings of R31, and a witness
for the hypotheses of every statement that has some. -/

namespace Sys2Proof.Tests
open Sys2Proof.Machine

/-- A report: the given bytes, then zeros, 22 in all. -/
def report (first : List Byte) : List Byte := first ++ List.replicate (22 - first.length) 0x00#8

/-- The state after a DECODE of a report that was accepted in the reset state. -/
def held (bytes : List Byte) : State :=
  { State.reset with rpt := Report.memWrite [] 0 bytes, valid := true, status := .ok }

/-- The reset state with a receive port. -/
def presented (bytes : List Byte) : State := { State.reset with rx := ⟨true, bytes⟩ }

/-- The registers a vector lists: `STATUS / RESULT / VALID / FAULT`. -/
def answer : Host.Outcome State Fault Refusal → Option (Status × Sample × Bool × BitVec 3)
  | .next s => some (s.status, s.result, s.valid, s.fault)
  | .fault _ => none
  | .refused _ => none

/-- `RPT` after an outcome. -/
def rptAfter : Host.Outcome State Fault Refusal → Option Report
  | .next s => some s.rpt
  | .fault _ => none
  | .refused _ => none

/-! ### WellFormed: an ill-formed term for each check -/

/-- R32: a reserved bit of each format. -/
theorem smoke_illegalWord_N : illegalWord 0b00000001#8 = true ∧ illegalWord 0b11110000#8 = true := by decide
theorem smoke_illegalWord_M : illegalWord 0b00110000#8 = true := by decide
theorem smoke_illegalWord_I : illegalWord 0b01001000#8 = true ∧ illegalWord 0b11010111#8 = true := by decide
/-- R4: the first index beyond each group. -/
theorem smoke_inRange_stop : (Instr.stop 4).inRange = false := by decide
theorem smoke_inRange_special : (Instr.special 6).inRange = false := by decide
theorem smoke_inRange_control : (Instr.control 3).inRange = false := by decide
theorem smoke_inRange_knob : (Instr.knob 4).inRange = false := by decide
theorem smoke_inRange_fader : (Instr.fader 4).inRange = false := by decide
/-- R34: "row or column > 3, index > 7". -/
theorem smoke_source_matrix :
    (SourceCommand.matrix 4 0).wellFormed = false ∧ (SourceCommand.matrix 0 4).wellFormed = false := by decide
theorem smoke_source_index :
    (SourceCommand.stop 8).wellFormed = false ∧ (SourceCommand.special 8).wellFormed = false ∧
    (SourceCommand.control 8).wellFormed = false ∧ (SourceCommand.knob 8).wellFormed = false ∧
    (SourceCommand.fader 8).wellFormed = false := by decide

/-! ### Decode: the words of R31, written out bit by bit -/

theorem test_decode_DECODE : decode 0b00000000#8 = .ok .decode := by decide
theorem test_decode_MATRIX : decode 0b00101011#8 = .ok (.matrix 2 3) := by decide
theorem test_decode_MATRIX_row_above_col : decode 0b00100001#8 = .ok (.matrix 0 1) := by decide
theorem test_decode_STOP : decode 0b01000011#8 = .ok (.stop 3) := by decide
theorem test_decode_SPECIAL : decode 0b01100110#8 = .ok (.special 6) := by decide
theorem test_decode_CONTROL : decode 0b10000001#8 = .ok (.control 1) := by decide
theorem test_decode_KNOB : decode 0b10100010#8 = .ok (.knob 2) := by decide
theorem test_decode_FADER : decode 0b11000111#8 = .ok (.fader 7) := by decide
theorem test_decode_WHEEL : decode 0b11100000#8 = .ok .wheel := by decide
/-- V9, V22, V51: the format whose reserved bits are broken is named. -/
theorem test_decode_illegal :
    decode 0x01#8 = .error .reservedBitsOfN ∧ decode 0x30#8 = .error .reservedBitOfM ∧
    decode 0x48#8 = .error .reservedBitsOfI ∧ decode 0xE1#8 = .error .reservedBitsOfN := by decide
theorem test_decodeTableWord : decodeTableWord 8 0xC3 = some (.fader 3) ∧ decodeTableWord 8 0xC8 = none := by decide

/-! ### One step each -/

/-- V18: 23 bytes are accepted, byte 22 is ignored. -/
theorem test_DECODE_long :
    answer (execDecode (presented (report [0x01] ++ [0xEE#8]))) = some (.ok, 0x000, true, 0b000) ∧
    rptAfter (execDecode (presented (report [0x01] ++ [0xEE#8]))) = some [(0, 0x01)] := by decide
/-- V15: length is checked before the identifier. -/
theorem test_DECODE_short_wrong_id :
    answer (execDecode (presented ((report [0x02]).take 21))) = some (.tooShort, 0x000, false, 0b000) := by decide
/-- V20, V21h: MATRIX 2,3 reads byte 1 bit 0, MATRIX 1,3 reads byte 2 bit 4. -/
theorem test_MATRIX :
    answer (execMatrix 2 3 (held (report [0x01, 0xA5, 0x3C]))) = some (.ok, 0x001, true, 0b000) ∧
    answer (execMatrix 1 3 (held (report [0x01, 0xA5, 0x3C]))) = some (.ok, 0x001, true, 0b000) := by decide
/-- V24, V25: MATRIX 0,0 under the other legal layouts. -/
theorem test_MATRIX_layouts :
    answer (execMatrixWith ⟨.byte2, .upper, .bit3⟩ 0 0 (held (report [0x01, 0xA5, 0x3C]))) =
      some (.ok, 0x000, true, 0b000) ∧
    answer (execMatrixWith ⟨.byte1, .lower, .bit3⟩ 0 0 (held (report [0x01, 0xA5, 0x3C]))) =
      some (.ok, 0x000, true, 0b000) := by decide
/-- V30, V30c: STOP 3 is pressed, STOP 2 is not. -/
theorem test_STOP :
    answer (execStop 3 (held (report [0x01, 0, 0, 0, 0x96]))) = some (.ok, 0x001, true, 0b000) ∧
    answer (execStop 2 (held (report [0x01, 0, 0, 0, 0x96]))) = some (.ok, 0x000, true, 0b000) := by decide
/-- V31: STOP 4 names no button. -/
theorem test_STOP_outOfRange :
    answer (execStop 4 (held (report [0x01, 0, 0, 0, 0x96]))) = some (.outOfRange, 0x000, true, 0b001) := by decide
/-- V1: byte 3 = 0x80 is Special(0) alone. -/
theorem test_SPECIAL :
    answer (execSpecial 0 (held (report [0x01, 0, 0, 0x80]))) = some (.ok, 0x001, true, 0b000) ∧
    answer (execSpecial 1 (held (report [0x01, 0, 0, 0x80]))) = some (.ok, 0x000, true, 0b000) := by decide
/-- V37: range before report. -/
theorem test_SPECIAL_range_first : answer (execSpecial 7 State.reset) = some (.outOfRange, 0x000, false, 0b001) := by decide
/-- V32, V33: CONTROL 0 reads bit 3, CONTROL 1 bit 2. -/
theorem test_CONTROL :
    answer (execControl 0 (held (report [0x01, 0, 0, 0, 0x96]))) = some (.ok, 0x000, true, 0b000) ∧
    answer (execControl 1 (held (report [0x01, 0, 0, 0, 0x96]))) = some (.ok, 0x001, true, 0b000) := by decide
/-- V39: with `P_CONTROL_TOP_BIT = 2` CONTROL 2 reads bit 0. -/
theorem test_CONTROL_layout :
    answer (execControlWith ⟨.byte1, .upper, .bit2⟩ 2 (held (report [0x01, 0, 0, 0, 0x96]))) =
      some (.ok, 0x000, true, 0b000) := by decide
/-- V40: little-endian. -/
theorem test_KNOB :
    answer (execKnob 0 (held (report [0x01, 0, 0, 0, 0, 0, 0x34, 0x12]))) = some (.ok, 0x234, true, 0b000) := by decide
/-- V53: no report. -/
theorem test_KNOB_noReport : answer (execKnob 0 State.reset) = some (.noReport, 0x000, false, 0b010) := by decide
/-- V47: the high nibble is masked; fader 3 is the last pair. -/
theorem test_FADER :
    answer (execFader 3 (held (0x01#8 :: List.replicate 19 0x00#8 ++ [0xFF#8, 0xFF#8]))) =
      some (.ok, 0xFFF, true, 0b000) := by decide
/-- V49: FADER 4 would name bytes that do not exist. -/
theorem test_FADER_outOfRange : answer (execFader 4 (held (report [0x01]))) = some (.outOfRange, 0x000, true, 0b001) := by
  decide
/-- V50. -/
theorem test_WHEEL :
    answer (execWheel (held (report [0x01, 0, 0, 0, 0, 0x0B]))) = some (.ok, 0x00B, true, 0b000) := by decide
/-- V54. -/
theorem test_WHEEL_noReport : answer (execWheel State.reset) = some (.noReport, 0x000, false, 0b010) := by decide
/-- V9: DECODE's opcode with a reserved bit set is not a DECODE. -/
theorem test_step_illegal :
    answer (step ((held (report [0x01])).withFetchWord 8 0x01)) = some (.illegal, 0x000, true, 0b100) := by decide
/-- V61: the bundle. -/
theorem test_bundle :
    (held (report [0x01, 0xA5, 0x3C, 0x80, 0x96])).bundle.matrix = 0x3AC5#16 ∧
    (held (report [0x01, 0xA5, 0x3C, 0x80, 0x96])).bundle.special = 0b000001#6 ∧
    (held (report [0x01, 0xA5, 0x3C, 0x80, 0x96])).bundle.stop = 0b1001#4 ∧
    (held (report [0x01, 0xA5, 0x3C, 0x80, 0x96])).bundle.control = 0b110#3 := by decide
/-- R34: a line with a hexadecimal operand, blanks and a comment (V20's word), and an operand that does not fit. -/
theorem test_assembler :
    Asm.program? ['M', 'A', 'T', 'R', 'I', 'X', ' ', '0', 'x', '2', ',', ' ', '3', ' ', ';', 'a', '\n', 'S', 'H', 'I', 'F', 'T'] =
      some [0x2B#8, 0x60#8] ∧
    Asm.program? ['S', 'T', 'O', 'P', ' ', '8'] = none := by decide

/-! ### Witnesses: a state and operands that meet the hypotheses of each statement, clause by clause -/

/-- A strobe of a word with nothing on the receive port. -/
def strobe (w : CommandWord) : Strobe := ⟨w, ⟨false, []⟩⟩

theorem witness_ResetLeavesNothingReadable :
    exec (.fader 3) State.reset = endedInError .noReport 0b010#3 State.reset ∧ Instr.fader 3 ≠ .decode ∧
    exec (.fader 4) State.reset = endedInError .outOfRange 0b001#3 State.reset ∧ Instr.fader 4 ≠ .decode :=
  ⟨rfl, by decide, rfl, by decide⟩

theorem witness_NoReportUntilDecodeSucceeds :
    let s : State := { State.reset with pending := [strobe 0xA0, ⟨0x00, ⟨true, report [0x02]⟩⟩] }
    s.valid = false ∧ 2 ≤ s.pending.length ∧
    ∀ p ∈ s.pending, ¬ (p.cmd = 0x00#8 ∧ p.rx.avail = true ∧ 22 ≤ p.rx.bytes.length ∧ p.rx.bytes.head? = some 0x01#8) := by
  decide

theorem witness_DecodeValidatesAndLatches_noData :
    State.reset.rx.avail = false ∧ (presented []).rx.avail = true ∧ (presented []).rx.bytes.length = 0 := by decide
theorem witness_DecodeValidatesAndLatches_tooShort :
    (presented [0x01]).rx.avail = true ∧ 1 ≤ (presented [0x01]).rx.bytes.length ∧
    (presented ((report [0x01]).take 21)).rx.bytes.length = 21 := by decide
theorem witness_DecodeValidatesAndLatches_badReportId :
    (presented (report [0x02])).rx.avail = true ∧ (presented (report [0x02])).rx.bytes.length = 22 ∧
    (presented (report [0x02])).rx.bytes.head? ≠ some 0x01#8 := by decide
theorem witness_DecodeValidatesAndLatches_accepted :
    (presented (report [0x01])).rpt.wf ∧ (presented (report [0x01])).rx.avail = true ∧
    (presented (report [0x01])).rx.bytes.length = 22 ∧ (presented (report [0x01])).rx.bytes.head? = some 0x01#8 := by decide

theorem witness_DecodeDoesNotDependOnThePast :
    (presented (report [0x01])).rpt.wf ∧ (held (report [0x01, 0xFF])).rpt.wf ∧
    (presented (report [0x01])).rx = ({ held (report [0x01, 0xFF]) with rx := ⟨true, report [0x01]⟩ } : State).rx := by decide

/-- The last button or channel of each group with a report held, for the first clause of its statement. -/
theorem witness_accessors_complete :
    (held (report [0x01])).valid = true ∧ (3#3).toNat < 4 ∧ (5#3).toNat < 6 ∧ (2#3).toNat < 3 := by decide
/-- The first index beyond each group, for the second clause. -/
theorem witness_accessors_outOfRange : 4 ≤ (4#3).toNat ∧ 6 ≤ (6#3).toNat ∧ 3 ≤ (3#3).toNat := by decide
/-- The same last indices without a report, for the third clause. -/
theorem witness_accessors_noReport :
    State.reset.valid = false ∧ (3#3).toNat < 4 ∧ (5#3).toNat < 6 ∧ (2#3).toNat < 3 := by decide
/-- A word of each opcode with a reserved bit set, for the last clause. -/
theorem witness_accessors_illegal :
    ((0x30#8).extractLsb' 5 3 = 0b001#3 ∧ (0x30#8).extractLsb' 4 1 ≠ 0#1) ∧
    ((0x48#8).extractLsb' 5 3 = 0b010#3 ∧ (0x48#8).extractLsb' 3 2 ≠ 0#2) ∧
    ((0x70#8).extractLsb' 5 3 = 0b011#3 ∧ (0x70#8).extractLsb' 3 2 ≠ 0#2) ∧
    ((0x98#8).extractLsb' 5 3 = 0b100#3 ∧ (0x98#8).extractLsb' 3 2 ≠ 0#2) ∧
    ((0xA8#8).extractLsb' 5 3 = 0b101#3 ∧ (0xA8#8).extractLsb' 3 2 ≠ 0#2) ∧
    ((0xD0#8).extractLsb' 5 3 = 0b110#3 ∧ (0xD0#8).extractLsb' 3 2 ≠ 0#2) ∧
    ((0xE1#8).extractLsb' 5 3 = 0b111#3 ∧ (0xE1#8).extractLsb' 0 5 ≠ 0#5) := by decide

theorem witness_AccessorChecksRangeThenReport :
    Instr.special 6 ≠ .decode ∧ (Instr.special 6).inRange = false ∧
    Instr.special 5 ≠ .decode ∧ (Instr.special 5).inRange = true ∧ State.reset.valid = false ∧
    (held (report [0x01])).valid = true := by decide

theorem witness_AnalogAndWheelStayInRange : (held (report [0x01])).valid = true ∧ (3#3).toNat < 4 := by decide

theorem witness_AccessorsIgnoreReceivePort : Instr.wheel ≠ .decode := by decide

theorem witness_AccessorsDoNotDisturbEachOther : Instr.stop 4 ≠ .decode ∧ Instr.wheel ≠ .decode := by decide

theorem witness_RepeatedCommandChangesNothing : (held (report [0x01, 0xA5])).rpt.wf := by decide

theorem witness_MemReadIsLittleEndian : 0 < 2 ∧ 1 < 2 := by decide

theorem witness_MatrixMapIsOneToOne :
    let p : Loc := matrixLoc Config.layout 3 3
    (p.byte.val = 1 ∨ p.byte.val = 2) ∧ p.bit.val = 0 := by decide

theorem witness_ButtonLocationsNeverOverlap :
    (ButtonId.stop 3).loc Config.layout = (ButtonId.stop 3).loc Config.layout := rfl

theorem witness_UnassignedBitsAreNeverSeen_DECODE :
    let p : RxPort := ⟨true, report [0x01]⟩
    let q : RxPort := ⟨true, report [0x01, 0, 0, 0x03, 0x01]⟩
    p ≠ q ∧ p.avail = q.avail ∧ p.bytes.length = q.bytes.length ∧ p.bytes.head? = q.bytes.head? := by decide
/-- Two reports that differ in every unassigned bit of byte 3, and in byte 0. -/
theorem witness_UnassignedBitsAreNeverSeen :
    ∀ a, a < 22 → (Report.memWrite [] 0 (report [0x01, 0, 0, 0x03])).read a &&& assignedBits a =
      Report.read [] a &&& assignedBits a := by decide

theorem witness_UnheldReportIsUnobservable :
    State.reset.SameVisible { State.reset with rpt := [(3, 0x80#8)] } :=
  ⟨rfl, by decide, by decide, by decide⟩

theorem witness_BundleShowsTheReport : State.reset.valid = false := by decide

theorem witness_BundleAgreesWithAccessors :
    (held (report [0x01])).valid = true ∧ (3#3).toNat < 4 ∧ (5#3).toNat < 6 ∧ (2#3).toNat < 3 ∧
    Instr.wheel ≠ .decode := by decide
/-- Two states that differ, with the same `VALID` and `RPT`, for the last clause. -/
theorem witness_BundleAgreesWithAccessors_function :
    let s := held (report [0x01])
    let u : State := { s with status := .noReport }
    s ≠ u ∧ s.valid = u.valid ∧ s.rpt = u.rpt := by decide

theorem witness_DecodeEncodeAgree : decode 0xC3#8 = .ok (.fader 3) := by decide

theorem witness_IllegalWordsAreNotPerformed_reserved :
    let w := 0x1F#8
    (w.extractLsb' 5 3).toNat = 0 ∧ w.extractLsb' 0 5 ≠ 0#5 := by decide
theorem witness_IllegalWordsAreNotPerformed_legal :
    let w := 0x2F#8
    (w.extractLsb' 5 3).toNat = 1 ∧ w.extractLsb' 4 1 = 0#1 := by decide

theorem witness_StepRunsTheDecodedCommand : decode 0xE0#8 = .ok .wheel := by decide

theorem witness_NoStepWithoutACommand : State.reset.pending = [] := rfl

/-- A step of an illegal word from a held report, for the statements about every step that ends in an error. -/
theorem witness_steps :
    let s : State := { held (report [0x01]) with pending := [strobe 0x1F] }
    ∃ t, s.pending = [strobe 0x1F] ∧ step s = .next t ∧ t.status ≠ .ok ∧ (strobe 0x1F).cmd ≠ 0x00#8 :=
  ⟨_, rfl, rfl, by decide, by decide⟩
/-- A step of a DECODE, for the clause about DECODE. -/
theorem witness_step_DECODE :
    let s : State := { held (report [0x01]) with pending := [strobe 0x00] }
    ∃ t, s.pending = [strobe 0x00] ∧ step s = .next t ∧ t.status ≠ .ok ∧ (strobe 0x00).cmd = 0x00#8 :=
  ⟨_, rfl, rfl, by decide, by decide⟩

theorem witness_StepKeepsTheInvariant :
    let s : State := { State.reset with pending := [strobe 0x00] }
    s.Inv ∧ ∃ t, step s = .next t :=
  ⟨⟨by decide, by decide, by decide, by decide, by decide, by decide, by
    intro p hp
    simp only [List.mem_singleton] at hp
    subst hp
    exact Nat.zero_le _⟩, _, rfl⟩

theorem witness_EveryQueueOfCommandsRuns :
    2 ≤ ({ State.reset with pending := [strobe 0x00, strobe 0xFF] } : State).pending.length := by decide

theorem witness_DisciplinedHostNeverFaults :
    let s : State := { State.reset with pending := [⟨0x00, ⟨true, report [0x01]⟩⟩, strobe 0x65, strobe 0x00] }
    disciplined s.valid s.pending = true ∧ 3 ≤ s.pending.length ∧ s.faulted = false := by decide

end Sys2Proof.Tests
end

section
/-! The status codes (R8) and the status ports (R14): what each port reads, and that a code names one status. -/

namespace Sys2Proof.Machine

/-- R8's table in its order. -/
theorem Status.map_code :
    [Status.none, .ok, .noData, .tooShort, .badReportId, .outOfRange, .noReport, .illegal].map Status.code =
      [0#3, 1#3, 2#3, 3#3, 4#3, 5#3, 6#3, 7#3] := rfl

@[simp] theorem Status.ofCode_code (x : Status) : Status.ofCode x.code = x := by
  cases x <;> rfl

@[simp] theorem State.statusPorts_status (s : State) : s.statusPorts.status = s.status.code := rfl
@[simp] theorem State.statusPorts_result (s : State) : s.statusPorts.result = s.result := rfl
@[simp] theorem State.statusPorts_valid (s : State) : s.statusPorts.valid = s.valid := rfl
@[simp] theorem State.statusPorts_fault (s : State) : s.statusPorts.fault = s.fault := rfl

/-- Settles O24: the table of codes, its left inverse by cases on the status, and the four ports one by one. -/
theorem statusPortsCarryTheRegisters : Obligations.StatusPortsCarryTheRegisters :=
  ⟨Status.map_code, Status.ofCode_code, fun s =>
    ⟨s.statusPorts_status, s.statusPorts_result, s.statusPorts_valid, s.statusPorts_fault⟩⟩

end Sys2Proof.Machine
end

section
/-! DECODE beyond byte 21 (R24): what a refusal depends on, and the outcome on a port cut to its first 22 bytes. -/

namespace Sys2Proof.Machine

/-- The checks R45 to R47 look at `rx_avail`, at the number of bytes up to 22 and at byte 0, and at nothing else. -/
theorem RxPort.refusal_congr {p q : RxPort} (havail : p.avail = q.avail)
    (hlen : min 22 p.bytes.length = min 22 q.bytes.length) (hhead : p.bytes.head? = q.bytes.head?) :
    p.refusal = q.refusal := by
  have hnoData : p.noData = q.noData := by
    rw [Bool.eq_iff_iff, p.noData_iff, q.noData_iff, havail]
    exact or_congr_right (by omega)
  have htooShort : p.tooShort = q.tooShort := by
    rw [Bool.eq_iff_iff, p.tooShort_iff, q.tooShort_iff, havail]
    exact and_congr_right fun _ => by omega
  have hbadReportId : p.badReportId = q.badReportId := by
    rw [Bool.eq_iff_iff, p.badReportId_iff, q.badReportId_iff, hhead]
    exact and_congr_left fun _ => by omega
  rw [RxPort.refusal, RxPort.refusal, hnoData, htooShort, hbadReportId]

theorem RxPort.refusal_take (avail : Bool) (bytes : List Byte) :
    RxPort.refusal ⟨avail, bytes.take 22⟩ = RxPort.refusal ⟨avail, bytes⟩ :=
  RxPort.refusal_congr rfl (by simp) (by simp [List.head?_take])

/-- Settles O4: both ports are refused with the same status, or both are accepted and the same 22 bytes are latched. -/
theorem decodeIgnoresExcessBytes : Obligations.DecodeIgnoresExcessBytes := by
  intro s avail bytes
  have htake := RxPort.refusal_take avail bytes
  cases hfull : RxPort.refusal ⟨avail, bytes⟩ with
  | some x => exact ⟨_, execDecode_refused (htake.trans hfull), execDecode_refused hfull⟩
  | none =>
    refine ⟨_, execDecode_accepted (htake.trans hfull), (execDecode_accepted hfull).trans ?_⟩
    have hlatched : (bytes.take 22).take 22 = bytes.take 22 := by rw [List.take_take, Nat.min_self]
    simp only [hlatched]
    rfl

end Sys2Proof.Machine
end

section
/-! Noninterference of the unassigned report bits (R42): everything an accessor or the bundle reads of a report lies in its
assigned bits. -/

namespace Sys2Proof.Machine

/-- Two reports that agree on the assigned bits of every byte (R42). -/
def Report.SameAssigned (r q : Report) : Prop :=
  ∀ a, a < 22 → r.read a &&& assignedBits a = q.read a &&& assignedBits a

/-- Two reports in which every button, channel and the wheel read alike, in the layout of R3. -/
structure Report.SameFields (r q : Report) : Prop where
  matrix : ∀ row col : Fin 4, r.bit (matrixLoc Config.layout row col) = q.bit (matrixLoc Config.layout row col)
  stop : ∀ i : Fin 4, r.bit (stopLoc i) = q.bit (stopLoc i)
  special : ∀ i : Fin 6, r.bit (specialLoc i) = q.bit (specialLoc i)
  control : ∀ i : Fin 3, r.bit (controlLoc Config.layout i) = q.bit (controlLoc Config.layout i)
  knob : ∀ k : Fin 4, r.analogRaw Config.knobBase k = q.analogRaw Config.knobBase k
  fader : ∀ k : Fin 4, r.analogRaw Config.faderBase k = q.analogRaw Config.faderBase k
  wheel : r.wheelRaw = q.wheelRaw

/-! ### From the assigned bits to the fields -/

/-- An assigned bit reads alike in both reports. -/
theorem Report.SameAssigned.getLsbD_read {r q : Report} (h : r.SameAssigned q) {a j : Nat} (ha : a < 22)
    (hj : (assignedBits a).getLsbD j = true) : (r.read a).getLsbD j = (q.read a).getLsbD j := by
  have hbit := congrArg (BitVec.getLsbD · j) (h a ha)
  simpa only [BitVec.getLsbD_and, hj, Bool.and_true] using hbit

theorem Report.SameAssigned.bit {r q : Report} (h : r.SameAssigned q) {p : Loc}
    (hp : (assignedBits p.byte.val).getLsbD p.bit.val = true) : r.bit p = q.bit p :=
  h.getLsbD_read p.byte.isLt hp

/-- A byte with every bit assigned reads alike. -/
theorem Report.SameAssigned.read {r q : Report} (h : r.SameAssigned q) {a : Nat} (ha : a < 22)
    (hall : assignedBits a = 0xFF#8) : r.read a = q.read a := by
  have hmask (b : Byte) : b &&& 0xFF#8 = b := BitVec.and_allOnes
  simpa only [hall, hmask] using h a ha

/-- The low nibble of a byte reads alike when its bits are assigned. -/
theorem Report.SameAssigned.lowNibble {r q : Report} (h : r.SameAssigned q) {a : Nat} (ha : a < 22)
    (hlow : assignedBits a = 0x0F#8) : (r.read a).extractLsb' 0 4 = (q.read a).extractLsb' 0 4 := by
  have hmask (b : Byte) : (b &&& 0x0F#8).extractLsb' 0 4 = b.extractLsb' 0 4 := by
    rw [BitVec.extractLsb'_and]
    exact BitVec.and_allOnes
  rw [← hmask, ← hmask (q.read a), ← hlow, h a ha]

/-- A channel reads alike when its low byte and the low nibble of its high byte are assigned (R41). -/
theorem Report.SameAssigned.analogRaw {r q : Report} (h : r.SameAssigned q) {base : Nat} {k : Fin 4}
    (hk : base + 2 * k.val + 1 < 22) (hlo : assignedBits (base + 2 * k.val) = 0xFF#8)
    (hhi : assignedBits (base + 2 * k.val + 1) = 0x0F#8) : r.analogRaw base k = q.analogRaw base k := by
  rw [Report.analogRaw_eq, Report.analogRaw_eq, h.read (by omega) hlo, h.lowNibble hk hhi]

/-- Every field lies in the assigned bits: for each one, a table of its locations. -/
theorem Report.SameAssigned.sameFields {r q : Report} (h : r.SameAssigned q) : r.SameFields q where
  matrix row col := h.bit (by revert row col; decide)
  stop i := h.bit (by revert i; decide)
  special i := h.bit (by revert i; decide)
  control i := h.bit (by revert i; decide)
  knob k := h.analogRaw (by revert k; decide) (by revert k; decide) (by revert k; decide)
  fader k := h.analogRaw (by revert k; decide) (by revert k; decide) (by revert k; decide)
  wheel := by rw [Report.wheelRaw_eq, Report.wheelRaw_eq, h.read (by decide) (by decide)]

/-! ### From the fields to the outputs and the commands -/

/-- The bundle reads nothing of the report but its fields. -/
theorem bundle_setRpt {s : State} {r : Report} (h : s.rpt.SameFields r) :
    ({ s with rpt := r } : State).bundle = s.bundle := by
  simp only [State.bundle, State.bundleWith, h.matrix, h.stop, h.special, h.control, h.knob, h.fader, h.wheel]

/-- An accessor that completes with the same values under another report differs in `RPT` alone. -/
theorem prologue_complete_setRpt (g : Group) (index : Nat) (s : State) (r : Report) (value : Fin g.limit → Sample) :
    prologue g index { s with rpt := r } (fun k => State.complete (value k) { s with rpt := r }) =
      { prologue g index s (fun k => s.complete (value k)) with rpt := r } := by
  rcases prologue_spec g index s fun k => s.complete (value k) with ⟨hi, h⟩ | ⟨hi, hv, h⟩ | ⟨hi, hv, h⟩ <;> rw [h]
  · exact prologue_outOfRange hi _ _
  · exact prologue_noReport (s := { s with rpt := r }) hi hv _
  · exact prologue_access (s := { s with rpt := r }) hi hv _

/-- Two outcomes are next states that differ in `RPT` alone. -/
def DifferInRptAlone (o o' : Host.Outcome State Fault Refusal) : Prop :=
  ∃ (t : State) (r : Report), o = .next t ∧ o' = .next { t with rpt := r }

theorem accessor_differInRptAlone {g : Group} {index : Nat} {s : State} {r : Report} {value value' : Fin g.limit → Sample}
    (h : ∀ k, value k = value' k) :
    DifferInRptAlone (.next (prologue g index s fun k => s.complete (value k)))
      (.next (prologue g index { s with rpt := r } fun k => State.complete (value' k) { s with rpt := r })) := by
  obtain rfl : value = value' := funext h
  exact ⟨_, r, rfl, congrArg _ (prologue_complete_setRpt g index s r value)⟩

/-- DECODE's outcome but for `RPT` does not depend on the report held before. -/
theorem execDecode_differInRptAlone (s : State) (r : Report) :
    DifferInRptAlone (execDecode s) (execDecode { s with rpt := r }) := by
  rcases execDecode_spec s with ⟨x, -, hx, h⟩ | ⟨hx, h⟩
  · exact ⟨_, r, h, execDecode_refused hx⟩
  · exact ⟨_, _, h, execDecode_accepted hx⟩

/-- Under a report with the same fields every command differs in `RPT` alone. -/
theorem exec_differInRptAlone {s : State} {r : Report} (h : s.rpt.SameFields r) (i : Instr) :
    DifferInRptAlone (exec i s) (exec i { s with rpt := r }) := by
  cases i with
  | decode => exact execDecode_differInRptAlone s r
  | matrix row col =>
    exact accessor_differInRptAlone (g := .matrix) fun _ => congrArg buttonResult (h.matrix row.toFin col.toFin)
  | stop i => exact accessor_differInRptAlone (g := .stop) fun k => congrArg buttonResult (h.stop k)
  | special i => exact accessor_differInRptAlone (g := .special) fun k => congrArg buttonResult (h.special k)
  | control i => exact accessor_differInRptAlone (g := .control) fun k => congrArg buttonResult (h.control k)
  | knob i => exact accessor_differInRptAlone (g := .knob) h.knob
  | fader i => exact accessor_differInRptAlone (g := .fader) h.fader
  | wheel => exact accessor_differInRptAlone (g := .wheel) fun _ => congrArg (BitVec.setWidth 12) h.wheel

/-- DECODE does not check the bytes after byte 0: ports with the same refusal answer alike. -/
theorem execDecode_setRx_congr (s : State) {p q : RxPort} (h : p.refusal = q.refusal) :
    ∃ t u, execDecode { s with rx := p } = .next t ∧ execDecode { s with rx := q } = .next u ∧
      t.status = u.status ∧ t.result = u.result ∧ t.valid = u.valid ∧ t.fault = u.fault := by
  cases hq : q.refusal with
  | some x => exact ⟨_, _, execDecode_refused (h.trans hq), execDecode_refused hq, rfl, rfl, rfl, rfl⟩
  | none => exact ⟨_, _, execDecode_accepted (h.trans hq), execDecode_accepted hq, rfl, rfl, rfl, rfl⟩

/-- Settles O22: the ports are refused alike, and reports that agree on the assigned bits have the same fields. -/
theorem unassignedBitsAreNeverSeen : Obligations.UnassignedBitsAreNeverSeen := by
  refine ⟨fun s p q havail hlen hhead => ?_, fun s r hr => ?_⟩
  · exact execDecode_setRx_congr s (RxPort.refusal_congr havail (congrArg (min 22) hlen) hhead)
  · have hfields : s.rpt.SameFields r := Report.SameAssigned.sameFields hr
    refine ⟨bundle_setRpt hfields, fun i => ?_⟩
    obtain ⟨t, r', ht, hu⟩ := exec_differInRptAlone hfields i
    exact ⟨t, _, ht, hu, rfl, rfl, rfl, rfl⟩

end Sys2Proof.Machine
end

section
/-! Illegal command words (R32, R44): the reserved bits of a word by its opcode field, and the step on a word the decoder
rejects. -/

namespace Sys2Proof.Machine

/-- `Illegal` (R44) by the opcode field: format N for 0 and 7, format M for 1, format I for 2 to 6. -/
theorem illegalWord_iff (w : CommandWord) :
    illegalWord w = true ↔
      (((w.extractLsb' 5 3).toNat = 0 ∨ (w.extractLsb' 5 3).toNat = 7) ∧ w.extractLsb' 0 5 ≠ 0#5) ∨
      ((w.extractLsb' 5 3).toNat = 1 ∧ w.extractLsb' 4 1 ≠ 0#1) ∨
      ((2 ≤ (w.extractLsb' 5 3).toNat ∧ (w.extractLsb' 5 3).toNat ≤ 6) ∧ w.extractLsb' 3 2 ≠ 0#2) := by
  have hop : (w.extractLsb' 5 3).toNat < 8 := (w.extractLsb' 5 3).isLt
  unfold illegalWord
  generalize (w.extractLsb' 5 3).toNat = op at hop ⊢
  split
  case h_1 => simp
  case h_2 => simp
  case h_3 => simp
  case h_4 h0 h7 h1 =>
    replace h0 : op ≠ 0 := h0
    replace h7 : op ≠ 7 := h7
    replace h1 : op ≠ 1 := h1
    have hI : 2 ≤ op ∧ op ≤ 6 := by omega
    simp [h0, h7, h1, hI]

theorem exists_decode_ok {w : CommandWord} (h : illegalWord w = false) : ∃ i, decode w = .ok i := by
  have hok := decode_isOk_iff w
  cases hd : decode w with
  | ok i => exact ⟨i, rfl⟩
  | error e => simp [hd, h, Except.isOk, Except.toBool] at hok

theorem exists_decode_error {w : CommandWord} (h : illegalWord w = true) : ∃ e, decode w = .error e := by
  have hok := decode_isOk_iff w
  cases hd : decode w with
  | ok i => simp [hd, h, Except.isOk, Except.toBool] at hok
  | error e => exact ⟨e, rfl⟩

/-- A word with a reserved bit set is refused in every state (R44). -/
theorem alwaysIllegal_of_illegalWord {w : CommandWord} (h : illegalWord w = true) : AlwaysIllegal w := by
  obtain ⟨e, he⟩ := exists_decode_error h
  exact fun _ rx rest => step_illegal (p := ⟨w, rx⟩) (rest := rest) rfl he

/-- R32's count of the words that are no command. -/
theorem length_illegalWords :
    ((List.range 256).filter fun n => (decode (BitVec.ofNat 8 n)).toOption.isNone).length = 198 := by
  decide +kernel

/-- R32's count of the command words. -/
theorem length_legalWords :
    ((List.range 256).filter fun n => (decode (BitVec.ofNat 8 n)).toOption.isSome).length = 58 := by
  decide +kernel

/-- Settles O30: the two counts, and the cases of `illegalWord_iff`. -/
theorem illegalWordsAreNotPerformed : Obligations.IllegalWordsAreNotPerformed := by
  refine ⟨length_illegalWords, length_legalWords, fun w => ⟨fun hset => ?_, fun hclear => ?_⟩⟩
  · exact alwaysIllegal_of_illegalWord ((illegalWord_iff w).mpr hset)
  · exact exists_decode_ok (Bool.eq_false_iff.mpr fun h => hclear ((illegalWord_iff w).mp h))

end Sys2Proof.Machine
end

section
/-! The opcode table (R31): no two rows overlap, and the decoder follows the rows. -/

namespace Sys2Proof

/-- Two rows clash when their match bits differ under both masks. -/
def OpcodeRow.Clash (r q : OpcodeRow) : Prop := r.value &&& q.mask ≠ q.value &&& r.mask

/-- Rows that clash select no common word. -/
theorem OpcodeRow.Clash.not_both_select {r q : OpcodeRow} (h : r.Clash q) (w : CommandWord) :
    ¬ (r.selects w = true ∧ q.selects w = true) := by
  rintro ⟨hr, hq⟩
  apply h
  rw [← beq_iff_eq.mp hr, ← beq_iff_eq.mp hq, BitVec.and_assoc, BitVec.and_assoc, BitVec.and_comm r.mask]

theorem opcodeTable_pairwise_clash : opcodeTable.Pairwise OpcodeRow.Clash := by
  unfold OpcodeRow.Clash
  decide

/-- At most one row of the table selects a word. -/
theorem length_selecting_rows_le_one (w : CommandWord) : (opcodeTable.filter fun r => r.selects w).length ≤ 1 := by
  have hclash : (opcodeTable.filter fun r => r.selects w).Pairwise OpcodeRow.Clash :=
    opcodeTable_pairwise_clash.filter _
  by_contra hlong
  have hselects (k : Nat) (hk : k < (opcodeTable.filter fun r => r.selects w).length) :
      (opcodeTable.filter fun r => r.selects w)[k].selects w = true :=
    (List.mem_filter.mp (List.getElem_mem hk)).2
  exact (List.pairwise_iff_getElem.mp hclash 0 1 (by omega) (by omega) (by omega)).not_both_select w
    ⟨hselects 0 (by omega), hselects 1 (by omega)⟩

/-- The decoder's operation is that of the first row that selects the word. -/
theorem opcode_decode_eq_find (w : CommandWord) :
    (decode w).toOption.map Instr.opcode = (opcodeTable.find? fun r => r.selects w).map OpcodeRow.op := by
  revert w
  decide

/-- Settles O29: over the command words for the row's operation, and from the clash of any two rows for its uniqueness. -/
theorem opcodeRowsSelectTheCommand : Obligations.OpcodeRowsSelectTheCommand :=
  fun w => ⟨opcode_decode_eq_find w, length_selecting_rows_le_one w⟩

end Sys2Proof
end

section
/-! The pseudo-instructions (R35): each is the command SPECIAL or CONTROL of a button's index. -/

namespace Sys2Proof

/-- SPECIAL's word: its index above the opcode's first word. -/
theorem encode_special (i : BitVec 3) : encode (.special i) = 0x60#8 + i.setWidth 8 := by
  revert i
  decide

/-- CONTROL's word: its index above the opcode's first word. -/
theorem encode_control (i : BitVec 3) : encode (.control i) = 0x80#8 + i.setWidth 8 := by
  revert i
  decide

/-- Settles O32: six SPECIAL and three CONTROL words. -/
theorem pseudoInstructionsAssembleAsListed : Obligations.PseudoInstructionsAssembleAsListed := by
  simp only [Obligations.PseudoInstructionsAssembleAsListed, List.map, Pseudo.expand, encode_special, encode_control]
  decide

end Sys2Proof
end

section
/-! DECODE's outcome on every receive port (R45 to R48): the refusal its checks name, the whole next state of each outcome,
and the second DECODE of an accepted report. -/

namespace Sys2Proof.Machine

/-! ### The refusal of a port, by R45 to R47 -/

theorem RxPort.refusal_eq_noData {p : RxPort} (h : p.avail = false ∨ p.bytes.length = 0) : p.refusal = some .noData :=
  if_pos (p.noData_iff.mpr h)

/-- A port with data is not `NoData`. -/
theorem RxPort.noData_ne_true {p : RxPort} (havail : p.avail = true) (hlen : 1 ≤ p.bytes.length) : ¬ p.noData = true := by
  rw [p.noData_iff, havail]
  simp only [Bool.true_eq_false, false_or]
  omega

theorem RxPort.refusal_eq_tooShort {p : RxPort} (havail : p.avail = true) (hmin : 1 ≤ p.bytes.length)
    (hmax : p.bytes.length ≤ 21) : p.refusal = some .tooShort := by
  rw [RxPort.refusal, if_neg (RxPort.noData_ne_true havail hmin), if_pos (p.tooShort_iff.mpr ⟨havail, hmin, hmax⟩)]

theorem RxPort.refusal_eq_badReportId {p : RxPort} (havail : p.avail = true) (hlen : 22 ≤ p.bytes.length)
    (hid : p.bytes.head? ≠ some 0x01#8) : p.refusal = some .badReportId := by
  have hlong : ¬ p.tooShort = true := fun h => by
    obtain ⟨-, -, hmax⟩ := p.tooShort_iff.mp h
    omega
  rw [RxPort.refusal, if_neg (RxPort.noData_ne_true havail (by omega)), if_neg hlong,
    if_pos (p.badReportId_iff.mpr ⟨hlen, hid⟩)]

theorem RxPort.refusal_eq_none {p : RxPort} (havail : p.avail = true) (hlen : 22 ≤ p.bytes.length)
    (hid : p.bytes.head? = some 0x01#8) : p.refusal = none :=
  Option.isNone_iff_eq_none.mp (p.accepted_iff.mpr ⟨havail, hlen, hid⟩)

/-! ### The next state -/

/-- Raising a status that is no contract fault leaves `FAULT` alone (R77). -/
theorem State.raise_eq_of_faultBits {x : Status} (hx : x.faultBits = 0#3) (s : State) :
    s.raise x = { s with status := x, result := 0#12 } := by
  rw [State.raise, hx, BitVec.or_zero]

/-- A refused DECODE writes `VALID`, `STATUS` and `RESULT` only. -/
theorem execDecode_eq_of_refusal {s : State} {x : Status} (h : s.rx.refusal = some x) (hx : x.faultBits = 0#3) :
    execDecode s = .next { s with valid := false, status := x, result := 0#12 } := by
  rw [execDecode_refused h, State.raise_eq_of_faultBits hx]

/-- After an accepted DECODE a second one, on the same port, changes nothing: it latches the same 22 bytes. -/
theorem execDecode_latched {s : State} (hwf : s.rpt.wf) (hlen : 22 ≤ s.rx.bytes.length) (hacc : s.rx.refusal = none) :
    let t := State.complete 0#12 { s with rpt := s.rpt.memWrite 0 (s.rx.bytes.take 22), valid := true }
    execDecode t = .next t := by
  intro t
  have hsame : t.rpt.memWrite 0 (s.rx.bytes.take 22) = t.rpt := latched_eq (wf_latched hwf _) hwf hlen
  calc execDecode t
      = .next (State.complete 0#12 { t with rpt := t.rpt.memWrite 0 (s.rx.bytes.take 22), valid := true }) :=
        execDecode_accepted (s := t) hacc
    _ = .next t := by rw [hsame]; rfl

/-- Settles O3: a refusal for each of the first three clauses; for the last the latched report, which a second DECODE
latches again. -/
theorem decodeValidatesAndLatches : Obligations.DecodeValidatesAndLatches := by
  refine ⟨Laws.RoundTrip.decode, fun s => ⟨fun hnone => ?_, fun havail hmin hmax => ?_, fun havail hlen hid => ?_,
    fun hwf havail hlen hid => ?_⟩⟩
  · exact execDecode_eq_of_refusal (RxPort.refusal_eq_noData hnone) rfl
  · exact execDecode_eq_of_refusal (RxPort.refusal_eq_tooShort havail hmin hmax) rfl
  · exact execDecode_eq_of_refusal (RxPort.refusal_eq_badReportId havail hlen hid) rfl
  · have hacc := RxPort.refusal_eq_none havail hlen hid
    exact ⟨s.rpt.memWrite 0 (s.rx.bytes.take 22), execDecode_accepted hacc, wf_latched hwf _,
      fun _ ha => read_latched hwf.1 hlen ha, execDecode_latched hwf hlen hacc⟩

end Sys2Proof.Machine
end

section
/-! The accessors' common form (R49): a prologue on the index, then a completion with a value of the report. -/

namespace Sys2Proof.Machine

/-- MATRIX is never out of range: 2-bit fields name only rows and columns that exist (R74). -/
@[simp] theorem Instr.inRange_matrix (row col : BitVec 2) : (Instr.matrix row col).inRange = true := by
  simp [Instr.inRange, row.isLt, col.isLt]

/-- Every accessor is a prologue of its group that completes with a value it reads of `RPT` alone, and its operand is in
range when the prologue's index is. -/
theorem exec_accessor {i : Instr} (hi : i ≠ .decode) :
    ∃ (g : Group) (index : Nat) (value : Report → Fin g.limit → Sample), (i.inRange = true ↔ index < g.limit) ∧
      ∀ s, exec i s = .next (prologue g index s fun k => s.complete (value s.rpt k)) := by
  cases i with
  | decode => exact absurd rfl hi
  | matrix row col =>
    exact ⟨.matrix, 0, fun r _ => buttonResult (r.bit (matrixLoc Config.layout row.toFin col.toFin)),
      by simp, fun _ => rfl⟩
  | stop k => exact ⟨.stop, k.toNat, fun r j => buttonResult (r.bit (stopLoc j)), decide_eq_true_iff, fun _ => rfl⟩
  | special k =>
    exact ⟨.special, k.toNat, fun r j => buttonResult (r.bit (specialLoc j)), decide_eq_true_iff, fun _ => rfl⟩
  | control k =>
    exact ⟨.control, k.toNat, fun r j => buttonResult (r.bit (controlLoc Config.layout j)), decide_eq_true_iff,
      fun _ => rfl⟩
  | knob k => exact ⟨.knob, k.toNat, fun r j => r.analogRaw Config.knobBase j, decide_eq_true_iff, fun _ => rfl⟩
  | fader k => exact ⟨.fader, k.toNat, fun r j => r.analogRaw Config.faderBase j, decide_eq_true_iff, fun _ => rfl⟩
  | wheel => exact ⟨.wheel, 0, fun r _ => r.wheelRaw.setWidth 12, iff_of_true rfl Nat.one_pos, fun _ => rfl⟩

/-! ### The three outcomes of an accessor -/

theorem exec_outOfRange {i : Instr} (hi : i ≠ .decode) (hrange : i.inRange = false) (s : State) :
    exec i s = endedInError .outOfRange 0b001#3 s := by
  obtain ⟨g, index, value, hiff, hexec⟩ := exec_accessor hi
  have hindex : g.limit ≤ index := Nat.le_of_not_lt fun h => by simp [hiff.mpr h] at hrange
  rw [hexec, prologue_outOfRange hindex]
  rfl

theorem exec_noReport {i : Instr} (hi : i ≠ .decode) (hrange : i.inRange = true) {s : State} (hv : s.valid = false) :
    exec i s = endedInError .noReport 0b010#3 s := by
  obtain ⟨g, index, value, hiff, hexec⟩ := exec_accessor hi
  rw [hexec, prologue_noReport (hiff.mp hrange) hv]
  rfl

theorem exec_completes {i : Instr} (hi : i ≠ .decode) (hrange : i.inRange = true) {s : State} (hv : s.valid = true) :
    ∃ v, exec i s = completedOk v s := by
  obtain ⟨g, index, value, hiff, hexec⟩ := exec_accessor hi
  refine ⟨value s.rpt ⟨index, hiff.mp hrange⟩, ?_⟩
  rw [hexec, prologue_access (hiff.mp hrange) hv]
  rfl

/-- Settles O13: the three outcomes of an accessor, and each group's limit. -/
theorem accessorChecksRangeThenReport : Obligations.AccessorChecksRangeThenReport := by
  refine ⟨fun i s hi => ⟨fun hr => ?_, fun hr hv => ?_, fun hr hv => ?_⟩, Instr.inRange_matrix, rfl, fun k => ?_⟩
  · exact exec_outOfRange hi hr s
  · exact exec_noReport hi hr hv
  · exact exec_completes hi hr hv
  · have hlimit (n : Nat) : decide (k.toNat < n) = false ↔ n ≤ k.toNat := decide_eq_false_iff_not.trans Nat.not_lt
    exact ⟨hlimit 4, hlimit 6, hlimit 3, hlimit 4, hlimit 4⟩

end Sys2Proof.Machine
end

section
/-! The matrix map (R50): its byte and bit, and its inverse on bytes 1 and 2 under every layout. -/

namespace Sys2Proof.Machine

theorem evenRowByte_eq (b : MatrixByte) : evenRowByte b = if b = .byte1 then 1 else 2 := by
  cases b <;> rfl

theorem evenRowByte_cases (b : MatrixByte) : evenRowByte b = 1 ∨ evenRowByte b = 2 := by
  cases b
  · exact .inl rfl
  · exact .inr rfl

/-- The byte alternates with the row, from the layout's byte of the even rows. -/
theorem matrixLoc_byte (l : Layout) (row col : Fin 4) :
    (matrixLoc l row col).byte.val =
      if row.val % 2 = 0 then evenRowByte l.matrixEvenRowByte else 3 - evenRowByte l.matrixEvenRowByte := by
  unfold matrixLoc
  split <;> rfl

/-- The bit: the layout's nibble of the row, column 0 highest. -/
theorem matrixLoc_bit (l : Layout) (row col : Fin 4) :
    (matrixLoc l row col).bit.val =
      (if (row.val / 2 = 0 ↔ l.matrixFirstRowNibble = .upper) then 4 else 0) + 3 - col.val := by
  simp only [matrixLoc, Bool.beq_eq_decide_eq, decide_eq_true_eq, decide_eq_decide]

theorem matrixLoc_byte_bounds (l : Layout) (row col : Fin 4) :
    1 ≤ (matrixLoc l row col).byte.val ∧ (matrixLoc l row col).byte.val ≤ 2 := by
  rw [matrixLoc_byte]
  rcases evenRowByte_cases l.matrixEvenRowByte with h | h <;> rw [h] <;> split <;> decide

/-! ### The inverse -/

/-- The row whose bits lie in the byte and nibble of p. -/
def matrixRowAt (l : Layout) (p : Loc) : Fin 4 :=
  ⟨(if p.byte.val = evenRowByte l.matrixEvenRowByte then 0 else 1) +
    (if (4 ≤ p.bit.val ↔ l.matrixFirstRowNibble = .upper) then 0 else 2), by split <;> split <;> decide⟩

/-- The column of p's bit within its nibble. -/
def matrixColAt (p : Loc) : Fin 4 := ⟨3 - p.bit.val % 4, by omega⟩

theorem matrixRowAt_mod_eq_zero_iff (l : Layout) (p : Loc) :
    (matrixRowAt l p).val % 2 = 0 ↔ p.byte.val = evenRowByte l.matrixEvenRowByte := by
  simp only [matrixRowAt]
  split <;> split <;> simp [*]

theorem matrixRowAt_div_eq_zero_iff (l : Layout) (p : Loc) :
    (matrixRowAt l p).val / 2 = 0 ↔ (4 ≤ p.bit.val ↔ l.matrixFirstRowNibble = .upper) := by
  simp only [matrixRowAt]
  split <;> split <;> simp [*]

/-- A bit lies in the upper nibble when the layout puts its row's nibble there. -/
theorem four_le_matrixLoc_bit_iff (l : Layout) (row col : Fin 4) :
    4 ≤ (matrixLoc l row col).bit.val ↔ (row.val / 2 = 0 ↔ l.matrixFirstRowNibble = .upper) := by
  rw [matrixLoc_bit]
  split
  · exact iff_of_true (by omega) ‹_›
  · exact iff_of_false (by omega) ‹_›

theorem iff_iff_cancel_right {a b : Prop} : ((a ↔ b) ↔ b) ↔ a := by
  by_cases hb : b <;> simp [hb]

theorem matrixRowAt_matrixLoc (l : Layout) (row col : Fin 4) : matrixRowAt l (matrixLoc l row col) = row := by
  have heven := evenRowByte_cases l.matrixEvenRowByte
  have hmod : (matrixRowAt l (matrixLoc l row col)).val % 2 = 0 ↔ row.val % 2 = 0 := by
    rw [matrixRowAt_mod_eq_zero_iff, matrixLoc_byte]
    split <;> omega
  have hdiv : (matrixRowAt l (matrixLoc l row col)).val / 2 = 0 ↔ row.val / 2 = 0 := by
    rw [matrixRowAt_div_eq_zero_iff, four_le_matrixLoc_bit_iff, iff_iff_cancel_right]
  exact Fin.ext (by omega)

theorem matrixColAt_matrixLoc (l : Layout) (row col : Fin 4) : matrixColAt (matrixLoc l row col) = col := by
  apply Fin.ext
  simp only [matrixColAt, matrixLoc_bit]
  split <;> omega

theorem Loc.ext_val {p q : Loc} (hbyte : p.byte.val = q.byte.val) (hbit : p.bit.val = q.bit.val) : p = q := by
  cases p
  cases q
  exact congrArg₂ Loc.mk (Fin.ext hbyte) (Fin.ext hbit)

/-- Every bit of bytes 1 and 2 is that of the button found there. -/
theorem matrixLoc_matrixRowAt {p : Loc} (hp : p.byte.val = 1 ∨ p.byte.val = 2) (l : Layout) :
    matrixLoc l (matrixRowAt l p) (matrixColAt p) = p := by
  apply Loc.ext_val
  · have heven := evenRowByte_cases l.matrixEvenRowByte
    rw [matrixLoc_byte]
    simp only [matrixRowAt_mod_eq_zero_iff]
    split <;> omega
  · rw [matrixLoc_bit]
    simp only [matrixRowAt_div_eq_zero_iff, iff_iff_cancel_right, matrixColAt]
    split <;> omega

/-! ### The layout of R3 -/

theorem matrixLoc_layout_byte (row col : Fin 4) : (matrixLoc Config.layout row col).byte.val = 1 + row.val % 2 := by
  have heven : evenRowByte Config.layout.matrixEvenRowByte = 1 := rfl
  rw [matrixLoc_byte, heven]
  split <;> omega

theorem matrixLoc_layout_bit (row col : Fin 4) :
    (matrixLoc Config.layout row col).bit.val = 7 - 4 * (row.val / 2) - col.val := by
  have hupper : Config.layout.matrixFirstRowNibble = .upper := rfl
  simp only [matrixLoc_bit, hupper, iff_true]
  split <;> omega

/-- Settles O20: the inverse makes the map one-to-one and onto bytes 1 and 2. -/
theorem matrixMapIsOneToOne : Obligations.MatrixMapIsOneToOne := by
  refine ⟨fun l => ⟨fun r c r' c' heq => ?_, fun p hp => ?_, fun r c => ⟨?_, matrixLoc_bit l r c⟩⟩, fun r c => ?_⟩
  · constructor
    · rw [← matrixRowAt_matrixLoc l r c, heq, matrixRowAt_matrixLoc]
    · rw [← matrixColAt_matrixLoc l r c, heq, matrixColAt_matrixLoc]
  · exact ⟨matrixRowAt l p, matrixColAt p, matrixLoc_matrixRowAt hp l⟩
  · rw [matrixLoc_byte, evenRowByte_eq]
    split <;> split <;> rfl
  · exact ⟨matrixLoc_layout_byte r c, matrixLoc_layout_bit r c⟩

end Sys2Proof.Machine
end

section
/-! The 29 button locations (R58): a location names its button, so no two buttons share one. -/

namespace Sys2Proof.Machine

@[simp] theorem stopLoc_byte (i : Fin 4) : (stopLoc i).byte.val = 4 := rfl
@[simp] theorem stopLoc_bit (i : Fin 4) : (stopLoc i).bit.val = 7 - i.val := rfl
@[simp] theorem specialLoc_byte (i : Fin 6) : (specialLoc i).byte.val = 3 := rfl
@[simp] theorem specialLoc_bit (i : Fin 6) : (specialLoc i).bit.val = 7 - i.val := rfl
@[simp] theorem controlLoc_byte (l : Layout) (i : Fin 3) : (controlLoc l i).byte.val = 4 := rfl
@[simp] theorem controlLoc_bit (l : Layout) (i : Fin 3) :
    (controlLoc l i).bit.val = controlTop l.controlTopBit - i.val := rfl

/-- The button whose bit lies at p: bytes 1 and 2 are the matrix's, byte 3 SPECIAL's, and byte 4 STOP's above CONTROL's.
What it answers for a bit that is no button's does not matter. -/
def Loc.button (l : Layout) (p : Loc) : ButtonId :=
  if p.byte.val ≤ 2 then .matrix (matrixRowAt l p) (matrixColAt p)
  else if p.byte.val = 3 then .special (Fin.ofNat 6 (7 - p.bit.val))
  else if 4 ≤ p.bit.val then .stop (Fin.ofNat 4 (7 - p.bit.val))
  else .control (Fin.ofNat 3 (controlTop l.controlTopBit - p.bit.val))

theorem controlTop_bounds (t : ControlTop) : 2 ≤ controlTop t ∧ controlTop t ≤ 3 := by
  cases t <;> decide

theorem Loc.button_matrixLoc (l : Layout) (row col : Fin 4) : (matrixLoc l row col).button l = .matrix row col := by
  rw [Loc.button, if_pos (matrixLoc_byte_bounds l row col).2, matrixRowAt_matrixLoc, matrixColAt_matrixLoc]

/-- An index is read back from a bit that counts down from `top`. -/
theorem finOfNat_sub_sub_self {n top : Nat} [NeZero n] (i : Fin n) (h : i.val ≤ top) :
    Fin.ofNat n (top - (top - i.val)) = i := by
  rw [Nat.sub_sub_self h, Fin.ofNat_val_eq_self]

theorem Loc.button_stopLoc (l : Layout) (i : Fin 4) : (stopLoc i).button l = .stop i := by
  have hbit : 4 ≤ 7 - i.val := by omega
  rw [Loc.button, stopLoc_byte, stopLoc_bit, if_neg (by decide), if_neg (by decide), if_pos hbit,
    finOfNat_sub_sub_self i (by omega)]

theorem Loc.button_specialLoc (l : Layout) (i : Fin 6) : (specialLoc i).button l = .special i := by
  rw [Loc.button, specialLoc_byte, specialLoc_bit, if_neg (by decide), if_pos rfl, finOfNat_sub_sub_self i (by omega)]

theorem Loc.button_controlLoc (l : Layout) (i : Fin 3) : (controlLoc l i).button l = .control i := by
  obtain ⟨htop2, htop3⟩ := controlTop_bounds l.controlTopBit
  have hbit : ¬ 4 ≤ controlTop l.controlTopBit - i.val := by omega
  rw [Loc.button, controlLoc_byte, controlLoc_bit, if_neg (by decide), if_neg (by decide), if_neg hbit,
    finOfNat_sub_sub_self i (by omega)]

theorem Loc.button_loc (l : Layout) : Function.LeftInverse (Loc.button l) (ButtonId.loc l)
  | .matrix row col => Loc.button_matrixLoc l row col
  | .stop i => Loc.button_stopLoc l i
  | .special i => Loc.button_specialLoc l i
  | .control i => Loc.button_controlLoc l i

theorem ButtonId.loc_byte_bounds (l : Layout) (b : ButtonId) : 1 ≤ (b.loc l).byte.val ∧ (b.loc l).byte.val ≤ 4 := by
  cases b with
  | matrix row col =>
    obtain ⟨hlo, hhi⟩ := matrixLoc_byte_bounds l row col
    exact ⟨hlo, hhi.trans (by decide)⟩
  | stop i => simp [ButtonId.loc]
  | special i => simp [ButtonId.loc]
  | control i => simp [ButtonId.loc]

/-- Settles O21: a location determines its button, and each group lies in its bytes. -/
theorem buttonLocationsNeverOverlap : Obligations.ButtonLocationsNeverOverlap :=
  fun l a _ => ⟨fun heq => (Loc.button_loc l).injective heq, a.loc_byte_bounds l⟩

end Sys2Proof.Machine
end

section
/-! The button accessors (R51, R53, R55, R57): the bit each reports, and the illegal words of its opcode. -/

namespace Sys2Proof.Machine

/-! ### Illegal words -/

theorem alwaysIllegal_of_formatM {w : CommandWord} (hop : w.extractLsb' 5 3 = 0b001#3)
    (hset : w.extractLsb' 4 1 ≠ 0#1) :
    AlwaysIllegal w :=
  alwaysIllegal_of_illegalWord ((illegalWord_iff w).mpr (.inr (.inl ⟨congrArg BitVec.toNat hop, hset⟩)))

/-- For an opcode of format I: STOP, SPECIAL, CONTROL, KNOB and FADER (R31). -/
theorem alwaysIllegal_of_formatI {op : BitVec 3} (hI : 2 ≤ op.toNat ∧ op.toNat ≤ 6) {w : CommandWord}
    (hop : w.extractLsb' 5 3 = op) (hset : w.extractLsb' 3 2 ≠ 0#2) : AlwaysIllegal w := by
  subst hop
  exact alwaysIllegal_of_illegalWord ((illegalWord_iff w).mpr (.inr (.inr ⟨hI, hset⟩)))

/-! ### Completion with a report held -/

/-- With a report held and the index in range, a button accessor completes OK with the bit at its location. -/
theorem prologue_button {g : Group} {index : Nat} (h : index < g.limit) {s : State} (hv : s.valid = true)
    (loc : Fin g.limit → Loc) :
    .next (prologue g index s fun k => s.complete (buttonResult (s.rpt.bit (loc k)))) =
      completedOk (if s.rpt.bit (loc ⟨index, h⟩) then 1#12 else 0#12) s := by
  rw [prologue_access h hv, buttonResult_eq]
  rfl

theorem exec_matrix_held (row col : BitVec 2) {s : State} (hv : s.valid = true) :
    exec (.matrix row col) s = completedOk
      (if (s.rpt.read (1 + row.toNat % 2)).getLsbD (7 - 4 * (row.toNat / 2) - col.toNat) then 1#12 else 0#12) s := by
  have hbit : s.rpt.bit (matrixLoc Config.layout row.toFin col.toFin) =
      (s.rpt.read (1 + row.toNat % 2)).getLsbD (7 - 4 * (row.toNat / 2) - col.toNat) := by
    rw [Report.bit, matrixLoc_layout_byte, matrixLoc_layout_bit]
    rfl
  rw [← hbit]
  exact prologue_button (g := .matrix) (by decide) hv fun _ => matrixLoc Config.layout row.toFin col.toFin

theorem exec_stop_held {i : BitVec 3} (hi : i.toNat < 4) {s : State} (hv : s.valid = true) :
    exec (.stop i) s = completedOk (if (s.rpt.read 4).getLsbD (7 - i.toNat) then 1#12 else 0#12) s :=
  prologue_button (g := .stop) hi hv stopLoc

theorem exec_special_held {i : BitVec 3} (hi : i.toNat < 6) {s : State} (hv : s.valid = true) :
    exec (.special i) s = completedOk (if (s.rpt.read 3).getLsbD (7 - i.toNat) then 1#12 else 0#12) s :=
  prologue_button (g := .special) hi hv specialLoc

theorem exec_control_held {i : BitVec 3} (hi : i.toNat < 3) {s : State} (hv : s.valid = true) :
    exec (.control i) s = completedOk (if (s.rpt.read 4).getLsbD (3 - i.toNat) then 1#12 else 0#12) s :=
  prologue_button (g := .control) hi hv (controlLoc Config.layout)

/-! ### The four commands -/

/-- Settles O6: the bit at the matrix location of R3's layout; two 2-bit operands are always in range. -/
theorem matrixReportsItsButton : Obligations.MatrixReportsItsButton := by
  refine ⟨fun row col s => ⟨fun hv => ?_, fun hv => ?_, ?_⟩, fun w hop hset => ?_⟩
  · exact exec_matrix_held row col hv
  · exact exec_noReport Instr.noConfusion (Instr.inRange_matrix row col) hv
  · exact Laws.RoundTrip.matrix row col
  · exact alwaysIllegal_of_formatM hop hset

/-- A format I accessor with indices below n, from what it completes with: its errors are the prologue's, and its
opcode's words with a reserved bit set are illegal. -/
theorem formatI_accessor_spec {cmd : BitVec 3 → Instr} {op : BitVec 3} {n : Nat} {value : BitVec 3 → State → Sample}
    (haccessor : ∀ i, cmd i ≠ .decode) (hrange : ∀ i, (cmd i).inRange = decide (i.toNat < n))
    (hdecode : ∀ i, decode (encode (cmd i)) = .ok (cmd i)) (hop : 2 ≤ op.toNat ∧ op.toNat ≤ 6)
    (hheld : ∀ {i : BitVec 3}, i.toNat < n → ∀ {s : State}, s.valid = true →
      exec (cmd i) s = completedOk (value i s) s) :
    (∀ (i : BitVec 3) (s : State),
      (i.toNat < n → s.valid = true → exec (cmd i) s = completedOk (value i s) s) ∧
      (n ≤ i.toNat → exec (cmd i) s = endedInError .outOfRange 0b001#3 s) ∧
      (i.toNat < n → s.valid = false → exec (cmd i) s = endedInError .noReport 0b010#3 s) ∧
      decode (encode (cmd i)) = .ok (cmd i)) ∧
    ∀ w : CommandWord, w.extractLsb' 5 3 = op → w.extractLsb' 3 2 ≠ 0#2 → AlwaysIllegal w := by
  refine ⟨fun i s => ⟨fun hi hv => hheld hi hv, fun hi => ?_, fun hi hv => ?_, hdecode i⟩,
    fun w => alwaysIllegal_of_formatI hop⟩
  · exact exec_outOfRange (haccessor i) ((hrange i).trans (decide_eq_false (Nat.not_lt.mpr hi))) s
  · exact exec_noReport (haccessor i) ((hrange i).trans (decide_eq_true hi)) hv

/-- Settles O7, from the bit of byte 4 that STOP completes with. -/
theorem stopReportsItsButton : Obligations.StopReportsItsButton :=
  formatI_accessor_spec (cmd := .stop) (fun _ => Instr.noConfusion) (fun _ => rfl) Laws.RoundTrip.stop (by decide)
    exec_stop_held

/-- Settles O8, from the bit of byte 3 that SPECIAL completes with. -/
theorem specialReportsItsButton : Obligations.SpecialReportsItsButton :=
  formatI_accessor_spec (cmd := .special) (fun _ => Instr.noConfusion) (fun _ => rfl) Laws.RoundTrip.special (by decide)
    exec_special_held

/-- Settles O9, from the bit of byte 4 that CONTROL completes with. -/
theorem controlReportsItsButton : Obligations.ControlReportsItsButton :=
  formatI_accessor_spec (cmd := .control) (fun _ => Instr.noConfusion) (fun _ => rfl) Laws.RoundTrip.control (by decide)
    exec_control_held

end Sys2Proof.Machine
end

section
/-! The analog sample (R41, R59): the pair of bytes in 16 bits, its mask, and the sample as a number. -/

namespace Sys2Proof.Machine

/-- The 16-bit pair, as R59 writes it. -/
theorem append_eq_shift_or (hi lo : Byte) : (hi ++ lo : BitVec 16) = (hi.setWidth 16 <<< 8) ||| lo.setWidth 16 := by
  rw [BitVec.append_def, BitVec.shiftLeftZeroExtend_eq, BitVec.setWidth'_eq]

/-- Cutting a masked pair to 12 bits and widening it again loses nothing: the mask has no bit above bit 11. -/
theorem setWidth_setWidth_and_analogMask (w : BitVec 16) :
    ((w &&& Config.analogMask).setWidth 12).setWidth 16 = w &&& Config.analogMask := by
  have hlt : (w &&& Config.analogMask).toNat < 2 ^ 12 := by
    rw [BitVec.toNat_and]
    exact Nat.and_lt_two_pow _ (by decide)
  apply BitVec.eq_of_toNat_eq
  rw [BitVec.toNat_setWidth_of_le (by decide), BitVec.toNat_setWidth, Nat.mod_eq_of_lt hlt]

/-- The nibble above the byte, as a number. -/
theorem toNat_lowNibble_append (hi lo : Byte) :
    (hi.extractLsb' 0 4 ++ lo : Sample).toNat = lo.toNat + 256 * (hi.toNat % 16) := by
  rw [BitVec.toNat_append, ← Nat.shiftLeft_add_eq_or_of_lt lo.isLt, Nat.shiftLeft_eq, BitVec.extractLsb'_toNat,
    Nat.shiftRight_zero]
  omega

/-- Settles O19: the masked pair loses nothing in 12 bits, and the nibble form gives the number. -/
theorem analogSampleIsTwelveBitPair : Obligations.AnalogSampleIsTwelveBitPair := by
  intro r base k lo hi
  refine ⟨?_, r.analogRaw_eq base k, ?_⟩
  · rw [← append_eq_shift_or, ← Report.memRead_two]
    exact setWidth_setWidth_and_analogMask _
  · rw [r.analogRaw_eq, toNat_lowNibble_append]

end Sys2Proof.Machine
end

section
/-! The analog and wheel accessors (R60, R61, R63): what each completes with, its illegal words, and the range of its
result (R64). -/

namespace Sys2Proof.Machine

/-- For an opcode of format N: DECODE and WHEEL (R31). -/
theorem alwaysIllegal_of_formatN {w : CommandWord}
    (hop : (w.extractLsb' 5 3).toNat = 0 ∨ (w.extractLsb' 5 3).toNat = 7) (hset : w.extractLsb' 0 5 ≠ 0#5) :
    AlwaysIllegal w :=
  alwaysIllegal_of_illegalWord ((illegalWord_iff w).mpr (.inl ⟨hop, hset⟩))

/-! ### Completion with a report held -/

/-- With a report held and the index in range, an analog accessor completes OK with the sample of its pair of bytes. -/
theorem prologue_analogRaw {g : Group} (hg : g.limit = 4) {index : Nat} (h : index < 4) {s : State}
    (hv : s.valid = true) (base : Nat) :
    .next (prologue g index s fun k => s.complete (s.rpt.analogRaw base (k.cast hg))) =
      completedOk ((s.rpt.read (base + 1 + 2 * index)).extractLsb' 0 4 ++ s.rpt.read (base + 2 * index)) s := by
  rw [prologue_access (hg ▸ h) hv, Report.analogRaw_eq, Nat.add_right_comm base 1]
  rfl

theorem exec_knob_held {i : BitVec 3} (hi : i.toNat < 4) {s : State} (hv : s.valid = true) :
    exec (.knob i) s =
      completedOk ((s.rpt.read (7 + 2 * i.toNat)).extractLsb' 0 4 ++ s.rpt.read (6 + 2 * i.toNat)) s :=
  prologue_analogRaw (g := .knob) rfl hi hv 6

theorem exec_fader_held {i : BitVec 3} (hi : i.toNat < 4) {s : State} (hv : s.valid = true) :
    exec (.fader i) s =
      completedOk ((s.rpt.read (15 + 2 * i.toNat)).extractLsb' 0 4 ++ s.rpt.read (14 + 2 * i.toNat)) s :=
  prologue_analogRaw (g := .fader) rfl hi hv 14

theorem exec_wheel_held {s : State} (hv : s.valid = true) :
    exec .wheel s = completedOk ((s.rpt.read 5).setWidth 12) s := by
  rw [← Report.wheelRaw_eq]
  exact congrArg _ (prologue_access (g := .wheel) Nat.one_pos hv _)

/-! ### The three commands -/

/-- Settles O10, from the pair of bytes from 6 on that KNOB completes with. -/
theorem knobReportsItsSample : Obligations.KnobReportsItsSample :=
  formatI_accessor_spec (cmd := .knob) (fun _ => Instr.noConfusion) (fun _ => rfl) Laws.RoundTrip.knob (by decide)
    exec_knob_held

/-- Settles O11, from the pair of bytes from 14 on that FADER completes with. -/
theorem faderReportsItsSample : Obligations.FaderReportsItsSample :=
  formatI_accessor_spec (cmd := .fader) (fun _ => Instr.noConfusion) (fun _ => rfl) Laws.RoundTrip.fader (by decide)
    exec_fader_held

/-- Settles O12: byte 5 as it is; WHEEL has no operand, so no index is out of range. -/
theorem wheelReportsItsByte : Obligations.WheelReportsItsByte := by
  refine ⟨fun s => ⟨fun hv => ?_, fun hv => ?_, ?_⟩, fun w hop hset => ?_⟩
  · exact exec_wheel_held hv
  · exact exec_noReport Instr.noConfusion rfl hv
  · exact Laws.RoundTrip.wheel
  · exact alwaysIllegal_of_formatN (.inr (congrArg BitVec.toNat hop)) hset

/-! ### The range of the results -/

/-- A byte widened to a sample stays below 256. -/
theorem toNat_setWidth_byte_le (b : Byte) : (b.setWidth 12).toNat ≤ 255 := by
  rw [BitVec.toNat_setWidth_of_le (by decide)]
  exact Nat.le_of_lt_succ b.isLt

/-- Settles O14: a pair completes with 12 bits, the wheel with one byte widened. -/
theorem analogAndWheelStayInRange : Obligations.AnalogAndWheelStayInRange := by
  intro s k hv hk
  refine ⟨?_, ?_, ?_⟩
  · exact ⟨_, exec_knob_held hk hv, rfl, Nat.le_of_lt_succ (BitVec.isLt _)⟩
  · exact ⟨_, exec_fader_held hk hv, rfl, Nat.le_of_lt_succ (BitVec.isLt _)⟩
  · exact ⟨_, exec_wheel_held hv, rfl, toNat_setWidth_byte_le _⟩

end Sys2Proof.Machine
end

section
/-! The decoded-output bundle (R65 to R69): each output from `VALID` and `RPT`, and its agreement with the accessors. -/

namespace Sys2Proof.Machine

/-! ### The outputs, from `VALID` and `RPT` -/

/-- Without a report every output is 0 (R65). -/
theorem bundle_eq_zero {s : State} (hv : s.valid = false) : s.bundle = Bundle.zero := by
  simp only [State.bundle, State.bundleWith, hv, Bool.false_and, gather_false, Bool.false_eq_true, if_false]
  rfl

/-- Output 4·row + col is the button in that row and column (R66). -/
theorem getLsbD_bundle_matrix (s : State) (row col : Fin 4) :
    s.bundle.matrix.getLsbD (4 * row.val + col.val) =
      (s.valid && (s.rpt.read (1 + row.val % 2)).getLsbD (7 - 4 * (row.val / 2) - col.val)) := by
  have hlt : 4 * row.val + col.val < 16 := by omega
  have hrow : (4 * row.val + col.val) / 4 = row.val := by omega
  have hcol : (4 * row.val + col.val) % 4 = col.val := by omega
  calc s.bundle.matrix.getLsbD (4 * row.val + col.val)
      = (s.valid && s.rpt.bit (matrixLoc Config.layout row col)) := by
        rw [bundle_matrix, getLsbD_gather _ ⟨4 * row.val + col.val, hlt⟩]
        simp only [hrow, hcol]
    _ = _ := by rw [Report.bit, matrixLoc_layout_byte, matrixLoc_layout_bit]

theorem getLsbD_bundle_stop (s : State) (i : Fin 4) :
    s.bundle.stop.getLsbD i.val = (s.valid && (s.rpt.read 4).getLsbD (7 - i.val)) := by
  rw [bundle_stop, getLsbD_gather, Report.bit, stopLoc_byte, stopLoc_bit]

theorem getLsbD_bundle_special (s : State) (i : Fin 6) :
    s.bundle.special.getLsbD i.val = (s.valid && (s.rpt.read 3).getLsbD (7 - i.val)) := by
  rw [bundle_special, getLsbD_gather, Report.bit, specialLoc_byte, specialLoc_bit]

theorem getLsbD_bundle_control (s : State) (i : Fin 3) :
    s.bundle.control.getLsbD i.val = (s.valid && (s.rpt.read 4).getLsbD (3 - i.val)) := by
  rw [bundle_control, getLsbD_gather, Report.bit, controlLoc_byte, controlLoc_bit]
  rfl

theorem getElem_bundle_knob (s : State) (i : Fin 4) :
    s.bundle.knob[i] =
      if s.valid then (s.rpt.read (7 + 2 * i.val)).extractLsb' 0 4 ++ s.rpt.read (6 + 2 * i.val) else 0#12 := by
  rw [bundle_knob, Fin.getElem_fin, Vector.getElem_ofFn, Report.analogRaw_eq, Nat.add_right_comm]

theorem getElem_bundle_fader (s : State) (i : Fin 4) :
    s.bundle.fader[i] =
      if s.valid then (s.rpt.read (15 + 2 * i.val)).extractLsb' 0 4 ++ s.rpt.read (14 + 2 * i.val) else 0#12 := by
  rw [bundle_fader, Fin.getElem_fin, Vector.getElem_ofFn, Report.analogRaw_eq, Nat.add_right_comm]

theorem bundle_wheel_eq_read (s : State) : s.bundle.wheel = if s.valid then s.rpt.read 5 else 0#8 := by
  rw [bundle_wheel, Report.wheelRaw_eq]

/-- Settles O25, output by output. -/
theorem bundleShowsTheReport : Obligations.BundleShowsTheReport :=
  fun s => ⟨bundle_valid s, bundle_eq_zero, getLsbD_bundle_matrix s, getLsbD_bundle_stop s, getLsbD_bundle_special s,
    getLsbD_bundle_control s, getElem_bundle_knob s, getElem_bundle_fader s, bundle_wheel_eq_read s⟩

/-! ### Agreement with the accessors -/

/-- An accessor keeps the registers the bundle shows, whether it completes or ends in an error. -/
theorem exec_keeps_valid_rpt {i : Instr} (hi : i ≠ .decode) (s : State) :
    ∃ t, exec i s = .next t ∧ t.valid = s.valid ∧ t.rpt = s.rpt := by
  cases hrange : i.inRange with
  | false => exact ⟨_, exec_outOfRange hi hrange s, rfl, rfl⟩
  | true =>
    by_cases hv : s.valid = true
    · obtain ⟨v, hexec⟩ := exec_completes hi hrange hv
      exact ⟨_, hexec, rfl, rfl⟩
    · exact ⟨_, exec_noReport hi hrange (Bool.eq_false_iff.mpr hv), rfl, rfl⟩

/-- With a report held, a command that completes with a button's bit completes with the output that shows this bit. -/
theorem completedOk_button_output {s : State} (hv : s.valid = true) {out b : Bool}
    {o : Host.Outcome State Fault Refusal} (hout : out = (s.valid && b))
    (hexec : o = completedOk (if b then 1#12 else 0#12) s) :
    o = completedOk ((BitVec.ofBool out).setWidth 12) s := by
  rw [hexec, hout, hv, Bool.true_and, ← buttonResult_eq, buttonResult]

/-- Settles O26: each accessor completes with the bits its output shows, and no accessor writes `VALID` or `RPT`. -/
theorem bundleAgreesWithAccessors : Obligations.BundleAgreesWithAccessors := by
  refine ⟨fun s hv => ⟨fun row col => ?_, fun i hi => ?_, fun i hi => ?_, fun i hi => ?_, fun i hi => ?_,
    fun i hi => ?_, ?_⟩, fun i s hi => ?_, fun s u => bundle_congr⟩
  · exact completedOk_button_output hv (getLsbD_bundle_matrix s row.toFin col.toFin) (exec_matrix_held row col hv)
  · exact completedOk_button_output hv (getLsbD_bundle_stop s ⟨i.toNat, hi⟩) (exec_stop_held hi hv)
  · exact completedOk_button_output hv (getLsbD_bundle_special s ⟨i.toNat, hi⟩) (exec_special_held hi hv)
  · exact completedOk_button_output hv (getLsbD_bundle_control s ⟨i.toNat, hi⟩) (exec_control_held hi hv)
  · have hout := (getElem_bundle_knob s ⟨i.toNat, hi⟩).trans (if_pos hv)
    exact (exec_knob_held hi hv).trans (congrArg (completedOk · s) hout.symm)
  · have hout := (getElem_bundle_fader s ⟨i.toNat, hi⟩).trans (if_pos hv)
    exact (exec_fader_held hi hv).trans (congrArg (completedOk · s) hout.symm)
  · rw [exec_wheel_held hv, bundle_wheel_eq_read, if_pos hv]
  · obtain ⟨t, hexec, hvalid, hrpt⟩ := exec_keeps_valid_rpt hi s
    exact ⟨t, hexec, bundle_congr hvalid hrpt⟩

end Sys2Proof.Machine
end

section
/-! How a step ends (R43, R75 to R77): it completes OK and leaves `FAULT` alone, or it raises a status, and `VALID` after an
error is the only register that depends on whether the word is DECODE's. -/

namespace Sys2Proof.Machine

/-- DECODE has the one word 0x00 (R31). -/
theorem decode_eq_ok_decode_iff (w : CommandWord) : decode w = .ok .decode ↔ w = 0x00#8 := by
  revert w
  decide

/-- `FAULT`'s bits by the status (R76, R77), as a chain of conditions. -/
theorem Status.faultBits_eq_ite (x : Status) :
    x.faultBits = if x = .outOfRange then 0b001#3 else if x = .noReport then 0b010#3
      else if x = .illegal then 0b100#3 else 0b000#3 := by
  cases x <;> rfl

/-- The state `t` in which a command performed in `s` ends; `v` is the `VALID` that an error leaves. -/
inductive State.EndsIn (s : State) (v : Bool) : State → Prop
  /-- OK: `FAULT` is as it was -/
  | completed {t : State} (hstatus : t.status = .ok) (hfault : t.fault = s.fault) : s.EndsIn v t
  /-- an error: `raise` (R75) and `VALID` -/
  | raised {x : Status} (hnone : x ≠ .none) (hok : x ≠ .ok) : s.EndsIn v (State.raise x { s with valid := v })

/-- However a command ends, `FAULT` gains the bits of its status (R76). -/
theorem State.EndsIn.fault_eq {s t : State} {v : Bool} (h : s.EndsIn v t) : t.fault = s.fault ||| t.status.faultBits := by
  cases h with
  | completed hstatus hfault =>
    rw [hstatus, hfault]
    exact BitVec.or_zero.symm
  | raised => rfl

/-! ### A command's end -/

theorem execDecode_endsIn (s : State) : ∃ t, execDecode s = .next t ∧ s.EndsIn false t := by
  rcases execDecode_spec s with ⟨x, hx, -, hexec⟩ | ⟨-, hexec⟩
  · refine ⟨_, hexec, .raised ?_ ?_⟩ <;> rcases hx with rfl | rfl | rfl <;> decide
  · exact ⟨_, hexec, .completed rfl rfl⟩

theorem exec_accessor_endsIn {i : Instr} (hi : i ≠ .decode) (s : State) : ∃ t, exec i s = .next t ∧ s.EndsIn s.valid t := by
  cases hrange : i.inRange with
  | false => exact ⟨_, exec_outOfRange hi hrange s, .raised (x := .outOfRange) (by decide) (by decide)⟩
  | true =>
    cases hv : s.valid with
    | false => exact ⟨_, exec_noReport hi hrange hv, hv ▸ .raised (x := .noReport) (by decide) (by decide)⟩
    | true =>
      obtain ⟨v, hexec⟩ := exec_completes hi hrange hv
      exact ⟨_, hexec, .completed rfl rfl⟩

/-- Every command ends, and an error clears `VALID` exactly when the command is DECODE. -/
theorem exec_endsIn (i : Instr) (s : State) :
    ∃ t, exec i s = .next t ∧ s.EndsIn (if i = .decode then false else s.valid) t := by
  by_cases hi : i = .decode
  · subst hi
    exact execDecode_endsIn s
  · rw [if_neg hi]
    exact exec_accessor_endsIn hi s

/-! ### A step's end -/

/-- A step ends as its command does: from the state with the strobe taken, an error clearing `VALID` exactly on DECODE's
word. -/
theorem step_endsIn {s t : State} {p : Strobe} {rest : List Strobe} (hp : s.pending = p :: rest) (h : step s = .next t) :
    State.EndsIn { s with rx := p.rx, pending := rest } (if p.cmd = 0x00#8 then false else s.valid) t := by
  simp only [← decode_eq_ok_decode_iff]
  cases hd : decode p.cmd with
  | error e =>
    obtain rfl := Host.Outcome.next.inj ((step_illegal hp hd).symm.trans h)
    rw [if_neg nofun]
    exact .raised (x := .illegal) (by decide) (by decide)
  | ok i =>
    rw [step_legal hp hd] at h
    obtain ⟨t', hexec, hends⟩ := exec_endsIn i { s with rx := p.rx, pending := rest }
    obtain rfl := Host.Outcome.next.inj (hexec.symm.trans h)
    simpa only [Except.ok.injEq] using hends

/-- Settles O37: a step has a strobe to take, and its end adds the bits of the status to `FAULT`. -/
theorem faultBitsAreSticky : Obligations.FaultBitsAreSticky := by
  intro s t h
  cases hp : s.pending with
  | nil => cases (step_nil hp).symm.trans h
  | cons p rest =>
    rw [← Status.faultBits_eq_ite]
    exact (step_endsIn hp h).fault_eq

/-- Settles O38: an end that is not OK is a `raise` from the state with the strobe taken. -/
theorem errorsArePrecise : Obligations.ErrorsArePrecise := by
  intro s t p rest hp h herror
  rw [← Status.faultBits_eq_ite]
  cases step_endsIn hp h with
  | completed hstatus => exact absurd hstatus herror
  | raised hnone => exact ⟨hnone, rfl⟩

end Sys2Proof.Machine
end

section
/-! Reset (R87): while no report is held every accessor ends in one of the prologue's two errors, whatever `RPT` holds. -/

namespace Sys2Proof.Machine

/-- Reset at power-up, with nothing presented on the ports, changes nothing. -/
@[simp] theorem State.applyReset_reset : State.reset.applyReset = State.reset := rfl

/-- Without a report held an accessor ends NO_REPORT when its operand is in range, and OUT_OF_RANGE when it is not. -/
theorem exec_accessor_unheld {i : Instr} (hi : i ≠ .decode) {s : State} (hv : s.valid = false) :
    exec i s = endedInError .noReport 0b010#3 s ∨ exec i s = endedInError .outOfRange 0b001#3 s := by
  cases hrange : i.inRange with
  | true => exact .inl (exec_noReport hi hrange hv)
  | false => exact .inr (exec_outOfRange hi hrange s)

/-- Settles O1: the registers are those of `applyReset`, and with `VALID` 0 neither the bundle nor an accessor shows `RPT`. -/
theorem resetLeavesNothingReadable : Obligations.ResetLeavesNothingReadable := by
  intro s r t
  have hv : t.valid = false := s.applyReset_valid
  exact ⟨hv, s.applyReset_status, s.applyReset_result, s.applyReset_fault, bundle_eq_zero hv,
    fun _ hi => exec_accessor_unheld hi hv, State.applyReset_reset⟩

end Sys2Proof.Machine
end

section
/-! Decoding and encoding (R29 to R31) are inverse to each other. -/

namespace Sys2Proof

theorem decode_encode : ∀ i : Instr, decode (encode i) = .ok i
  | .decode => Laws.RoundTrip.decode
  | .matrix row col => Laws.RoundTrip.matrix row col
  | .stop i => Laws.RoundTrip.stop i
  | .special i => Laws.RoundTrip.special i
  | .control i => Laws.RoundTrip.control i
  | .knob i => Laws.RoundTrip.knob i
  | .fader i => Laws.RoundTrip.fader i
  | .wheel => Laws.RoundTrip.wheel

/-- Decoding a word and encoding the command gives the word back, unless a reserved bit is set (R44): by the table of
all command words. -/
theorem map_encode_decode (w : CommandWord) :
    (decode w).toOption.map encode = if illegalWord w then none else some w := by
  revert w
  decide

theorem encode_of_decode {w : CommandWord} {i : Instr} (h : decode w = .ok i) : encode i = w := by
  have hw := map_encode_decode w
  rw [h] at hw
  split at hw
  · cases hw
  · exact Option.some.inj hw

/-- Settles O27: each command's word decodes to it, and the legal words are the commands' own. -/
theorem decodeEncodeAgree : Obligations.DecodeEncodeAgree :=
  ⟨decode_encode, fun _ _ => encode_of_decode⟩

theorem toOption_decode_eq_none {w : CommandWord} (h : illegalWord w = true) : (decode w).toOption = none := by
  obtain ⟨e, he⟩ := Machine.exists_decode_error h
  rw [he]
  rfl

/-- Settles O28: each listed word is the encoding of its command, and the last three have a reserved bit set. -/
theorem tabledWordsDecode : Obligations.TabledWordsDecode :=
  ⟨decode_encode .decode, decode_encode (.matrix 2 3), decode_encode (.matrix 1 0), decode_encode (.stop 3),
    decode_encode (.special 6), decode_encode (.control 1), decode_encode (.knob 4), decode_encode (.fader 3),
    decode_encode .wheel, toOption_decode_eq_none rfl, toOption_decode_eq_none rfl, toOption_decode_eq_none rfl⟩

end Sys2Proof
end

section
/-! The assembler (R34): which operands it refuses, and the words of those it takes. -/

namespace Sys2Proof

/-- MATRIX's word: row and column as one number above the opcode's first word (R31). -/
theorem encode_matrix (row col : BitVec 2) :
    encode (.matrix row col) = BitVec.ofNat 8 (0x20 + 4 * row.toNat + col.toNat) := by
  revert row col
  decide

/-- A format I command assembles to its index above the opcode's first word `base`, and an index of more than 3 bits is
refused. -/
theorem map_encode_assemble_index {source : Nat → SourceCommand} {cmd : BitVec 3 → Instr} {base : Nat}
    (hassemble : ∀ i, (source i).assemble = if decide (i ≤ 7) then some (cmd (BitVec.ofNat 3 i)) else none)
    (hencode : ∀ i : BitVec 3, encode (cmd i) = BitVec.ofNat 8 (base + i.toNat)) (i : Nat) :
    (source i).assemble.map encode = if i ≤ 7 then some (BitVec.ofNat 8 (base + i)) else none := by
  simp only [hassemble, decide_eq_true_eq]
  split
  · have hfits : (BitVec.ofNat 3 i).toNat = i := Nat.mod_eq_of_lt (by omega)
    rw [Option.map_some, hencode, hfits]
  · rfl

/-- MATRIX assembles to its word when row and column are numbers of 2 bits, and is refused otherwise. -/
theorem map_encode_assemble_matrix (row col : Nat) :
    (SourceCommand.matrix row col).assemble.map encode =
      if row ≤ 3 ∧ col ≤ 3 then some (BitVec.ofNat 8 (0x20 + 4 * row + col)) else none := by
  have hassemble : (SourceCommand.matrix row col).assemble =
      if row ≤ 3 ∧ col ≤ 3 then some (.matrix (BitVec.ofNat 2 row) (BitVec.ofNat 2 col)) else none := by
    simp [SourceCommand.assemble, SourceCommand.wellFormed]
  rw [hassemble]
  split
  · have hrow : (BitVec.ofNat 2 row).toNat = row := Nat.mod_eq_of_lt (by omega)
    have hcol : (BitVec.ofNat 2 col).toNat = col := Nat.mod_eq_of_lt (by omega)
    rw [Option.map_some, encode_matrix, hrow, hcol]
  · rfl

/-- Settles O31: MATRIX by its two operands, the five commands of format I by one lemma, and the two without operand. -/
theorem assemblerRefusesWhatDoesNotFit : Obligations.AssemblerRefusesWhatDoesNotFit := by
  refine ⟨map_encode_assemble_matrix, fun i => ⟨?_, ?_, ?_, ?_, ?_⟩, rfl, rfl⟩
  · exact map_encode_assemble_index (source := .stop) (cmd := .stop) (fun _ => rfl) (by decide) i
  · exact map_encode_assemble_index (source := .special) (cmd := .special) (fun _ => rfl) (by decide) i
  · exact map_encode_assemble_index (source := .control) (cmd := .control) (fun _ => rfl) (by decide) i
  · exact map_encode_assemble_index (source := .knob) (cmd := .knob) (fun _ => rfl) (by decide) i
  · exact map_encode_assemble_index (source := .fader) (cmd := .fader) (fun _ => rfl) (by decide) i

end Sys2Proof
end

section
/-! The bytes of a wide read (R20). -/

namespace Sys2Proof.Machine

/-- Settles O18: byte 0 is the low byte of the read, byte j + 1 is byte j of the rest, read one address further. -/
theorem memReadIsLittleEndian : Obligations.MemReadIsLittleEndian := by
  intro r a n j hj
  induction n generalizing a j with
  | zero => exact absurd hj (Nat.not_lt_zero j)
  | succ n ih =>
    rw [Report.memRead_succ]
    cases j with
    | zero =>
      calc (r.memRead (a + 1) n ++ r.read a).extractLsb' 0 8
          = (r.read a).extractLsb' 0 8 := BitVec.extractLsb'_append_eq_of_add_le (by decide)
        _ = r.read a := BitVec.extractLsb'_eq_self
    | succ j =>
      calc (r.memRead (a + 1) n ++ r.read a).extractLsb' (8 * j + 8) 8
          = (r.memRead (a + 1) n).extractLsb' (8 * j) 8 := BitVec.extractLsb'_append_eq_of_le (by omega)
        _ = r.read (a + 1 + j) := ih (a + 1) j (by omega)
        _ = r.read (a + (j + 1)) := by rw [Nat.add_right_comm, Nat.add_assoc]

end Sys2Proof.Machine
end

section
/-! What an accessor reads and writes (R13, R22): it answers from `VALID` and a held report alone, by `STATUS`, `RESULT` and
the status's bits of `FAULT`. -/

namespace Sys2Proof.Machine

/-- The state with a command's answer, `STATUS` and `RESULT`, and the `FAULT` bits of its status (R75, R76). -/
def State.answered (a : Status × Sample) (s : State) : State :=
  { s with status := a.1, result := a.2, fault := s.fault ||| a.1.faultBits }

theorem State.complete_eq_answered (v : Sample) (s : State) : s.complete v = s.answered (.ok, v) := by
  have hfault : s.fault ||| Status.ok.faultBits = s.fault := BitVec.or_zero
  rw [State.answered, hfault]
  rfl

/-- Answering twice alike is answering once: `FAULT` holds the bits already. -/
theorem State.answered_answered (a : Status × Sample) (s : State) : (s.answered a).answered a = s.answered a := by
  have hfault : s.fault ||| a.1.faultBits ||| a.1.faultBits = s.fault ||| a.1.faultBits := by
    rw [BitVec.or_assoc, BitVec.or_self]
  simp only [State.answered, hfault]

/-- The value an in-range accessor completes with is read of `RPT` alone. -/
theorem exec_held {i : Instr} (hi : i ≠ .decode) (hrange : i.inRange = true) :
    ∃ value : Report → Sample, ∀ s : State, s.valid = true → exec i s = .next (s.answered (.ok, value s.rpt)) := by
  obtain ⟨g, index, value, hiff, hexec⟩ := exec_accessor hi
  refine ⟨fun r => value r ⟨index, hiff.mp hrange⟩, fun s hv => ?_⟩
  rw [hexec, prologue_access (hiff.mp hrange) hv, State.complete_eq_answered]

/-- An accessor's answer depends on `VALID` and, when it is 1, on `RPT`: every state that agrees with `s` on these gets
the answer that `s` gets. -/
theorem exec_accessor_answered {i : Instr} (hi : i ≠ .decode) (s : State) :
    ∃ a, ∀ u : State, u.valid = s.valid → (s.valid = true → u.rpt = s.rpt) → exec i u = .next (u.answered a) := by
  cases hrange : i.inRange with
  | false => exact ⟨(.outOfRange, 0#12), fun u _ _ => exec_outOfRange hi hrange u⟩
  | true =>
    cases hv : s.valid with
    | false => exact ⟨(.noReport, 0#12), fun u hu _ => exec_noReport hi hrange hu⟩
    | true =>
      obtain ⟨value, hexec⟩ := exec_held hi hrange
      exact ⟨(.ok, value s.rpt), fun u hu hrpt => hrpt rfl ▸ hexec u hu⟩

/-- Settles O15: the receive port is neither `VALID` nor `RPT`. -/
theorem accessorsIgnoreReceivePort : Obligations.AccessorsIgnoreReceivePort := by
  intro i s p hi
  obtain ⟨a, hexec⟩ := exec_accessor_answered hi s
  exact ⟨s.answered a, hexec s rfl fun _ => rfl, hexec { s with rx := p } rfl fun _ => rfl⟩

/-- Settles O16: the first accessor's answer leaves `VALID` and `RPT`, from which the second answers. -/
theorem accessorsDoNotDisturbEachOther : Obligations.AccessorsDoNotDisturbEachOther := by
  intro i j s hi hj
  obtain ⟨a, hfirst⟩ := exec_accessor_answered hi s
  obtain ⟨b, hsecond⟩ := exec_accessor_answered hj s
  exact ⟨s.answered a, (s.answered a).answered b, s.answered b, hfirst s rfl fun _ => rfl,
    hsecond (s.answered a) rfl fun _ => rfl, hsecond s rfl fun _ => rfl, rfl, rfl, rfl, rfl⟩

/-- An accessor performed again gives its answer again. -/
theorem exec_accessor_repeated {i : Instr} (hi : i ≠ .decode) (s : State) :
    ∃ t, exec i s = .next t ∧ exec i t = .next t := by
  obtain ⟨a, hexec⟩ := exec_accessor_answered hi s
  refine ⟨s.answered a, hexec s rfl fun _ => rfl, ?_⟩
  rw [hexec (s.answered a) rfl fun _ => rfl, State.answered_answered]

end Sys2Proof.Machine
end

section
/-! DECODE's refusals and what DECODE depends on (R48, R77), and the statuses of every command (R70). -/

namespace Sys2Proof.Machine

theorem RxPort.mem_of_refusal {p : RxPort} {x : Status} (h : p.refusal = some x) :
    x ∈ [Status.noData, .tooShort, .badReportId] := by
  rcases p.refusal_spec with ⟨hx, -⟩ | ⟨hx, -⟩ | ⟨hx, -⟩ | ⟨hx, -⟩ <;> cases hx.symm.trans h <;> decide

/-- No refusal is a contract fault (R77). -/
theorem RxPort.faultBits_of_refusal {p : RxPort} {x : Status} (h : p.refusal = some x) : x.faultBits = 0b000#3 := by
  have hbits : ∀ x ∈ [Status.noData, .tooShort, .badReportId], x.faultBits = 0b000#3 := by decide
  exact hbits x (RxPort.mem_of_refusal h)

theorem RxPort.ne_ok_of_refusal {p : RxPort} {x : Status} (h : p.refusal = some x) : x ≠ .ok := by
  rintro rfl
  exact absurd (RxPort.mem_of_refusal h) (by decide)

/-- A port that is not refused holds a report of 22 bytes or more with the identifier. -/
theorem RxPort.report_of_refusal_none {p : RxPort} (h : p.refusal = none) :
    22 ≤ p.bytes.length ∧ p.bytes.head? = some 0x01#8 :=
  (p.accepted_iff.mp (Option.isNone_iff_eq_none.mpr h)).2

/-- A refused DECODE writes `VALID`, `STATUS` and `RESULT`, and no bit of `FAULT`. -/
theorem execDecode_of_refusal {s : State} {x : Status} (h : s.rx.refusal = some x) :
    execDecode s = .next { s with valid := false, status := x, result := 0#12 } :=
  execDecode_eq_of_refusal h (RxPort.faultBits_of_refusal h)

/-- Settles O5: the port decides the refusal, and a latched report does not depend on the one held before. -/
theorem decodeDoesNotDependOnThePast : Obligations.DecodeDoesNotDependOnThePast := by
  intro s u hs hu hrx
  cases h : s.rx.refusal with
  | some x =>
    exact ⟨_, _, execDecode_of_refusal h, execDecode_of_refusal (hrx ▸ h), rfl, rfl, rfl,
      fun hok => absurd hok (RxPort.ne_ok_of_refusal h), rfl, rfl⟩
  | none =>
    refine ⟨_, _, execDecode_accepted h, execDecode_accepted (hrx ▸ h), rfl, rfl, rfl, fun _ => ?_, rfl, rfl⟩
    simp only [State.complete_rpt, ← hrx]
    exact latched_eq hs hu (RxPort.report_of_refusal_none h).1

theorem execDecode_repeated {s : State} (hwf : s.rpt.wf) : ∃ t, execDecode s = .next t ∧ execDecode t = .next t := by
  cases h : s.rx.refusal with
  | some x => exact ⟨_, execDecode_of_refusal h, execDecode_of_refusal h⟩
  | none => exact ⟨_, execDecode_accepted h, execDecode_latched hwf (RxPort.report_of_refusal_none h).1 h⟩

/-- Settles O17: DECODE finds the same port and latches the same report; an accessor gives the same answer. -/
theorem repeatedCommandChangesNothing : Obligations.RepeatedCommandChangesNothing := by
  intro i s hwf
  by_cases hi : i = .decode
  · subst hi
    exact execDecode_repeated hwf
  · exact exec_accessor_repeated hi s

/-! ### The statuses -/

theorem execDecode_status (s : State) :
    ∃ t, execDecode s = .next t ∧ t.status ∈ [Status.ok, .noData, .tooShort, .badReportId] := by
  cases h : s.rx.refusal with
  | some x => exact ⟨_, execDecode_of_refusal h, List.mem_cons_of_mem _ (RxPort.mem_of_refusal h)⟩
  | none => exact ⟨_, execDecode_accepted h, List.mem_cons_self⟩

theorem exec_inRange_status {i : Instr} (hi : i ≠ .decode) (hrange : i.inRange = true) (s : State) :
    ∃ t, exec i s = .next t ∧ t.status ∈ [Status.ok, .noReport] := by
  cases hv : s.valid with
  | false => exact ⟨_, exec_noReport hi hrange hv, by simp⟩
  | true =>
    obtain ⟨v, hexec⟩ := exec_completes hi hrange hv
    exact ⟨_, hexec, by simp⟩

theorem exec_accessor_status {i : Instr} (hi : i ≠ .decode) (s : State) :
    ∃ t, exec i s = .next t ∧ t.status ∈ [Status.ok, .outOfRange, .noReport] := by
  cases hrange : i.inRange with
  | false => exact ⟨_, exec_outOfRange hi hrange s, by simp⟩
  | true =>
    obtain ⟨t, hexec, hstatus⟩ := exec_inRange_status hi hrange s
    have hsub : [Status.ok, .noReport] ⊆ [Status.ok, .outOfRange, .noReport] := by decide
    exact ⟨t, hexec, hsub hstatus⟩

/-- Settles O36: DECODE's statuses are its refusals and OK; MATRIX and WHEEL are always in range. -/
theorem everyCommandCompletesWithItsStatuses : Obligations.EveryCommandCompletesWithItsStatuses := by
  intro i s
  cases i with
  | decode => exact execDecode_status s
  | matrix row col => exact exec_inRange_status (i := .matrix row col) nofun (Instr.inRange_matrix row col) s
  | stop k => exact exec_accessor_status (i := .stop k) nofun s
  | special k => exact exec_accessor_status (i := .special k) nofun s
  | control k => exact exec_accessor_status (i := .control k) nofun s
  | knob k => exact exec_accessor_status (i := .knob k) nofun s
  | fader k => exact exec_accessor_status (i := .fader k) nofun s
  | wheel => exact exec_inRange_status (i := .wheel) nofun rfl s

end Sys2Proof.Machine
end

section
/-! What a step takes and what it depends on (R1, R25, R43): one strobe, none of the strobes after it, and its command
alone writes `VALID` and `RPT`. -/

namespace Sys2Proof.Machine

/-- A step that answers a next state took a strobe: it raised ILLEGAL, or it is the command's. -/
theorem step_next_cases {s t : State} (h : step s = .next t) :
    ∃ p rest, s.pending = p :: rest ∧
      ((∃ e, decode p.cmd = .error e ∧ t = State.raise .illegal { s with rx := p.rx, pending := rest }) ∨
       ∃ i, decode p.cmd = .ok i ∧ exec i { s with rx := p.rx, pending := rest } = .next t) := by
  rcases step_cases s with ⟨-, hfault⟩ | ⟨p, rest, hp, ⟨e, he, hill⟩ | ⟨i, hi, hexec⟩⟩
  · cases hfault.symm.trans h
  · exact ⟨p, rest, hp, .inl ⟨e, he, Host.Outcome.next.inj (h.symm.trans hill)⟩⟩
  · exact ⟨p, rest, hp, .inr ⟨i, hi, hexec.symm.trans h⟩⟩

/-- No command reads or writes the strobes to come, and none writes the receive port. -/
theorem exec_setPending (i : Instr) (s : State) :
    ∃ t, exec i s = .next t ∧ t.pending = s.pending ∧ t.rx = s.rx ∧
      ∀ l, exec i { s with pending := l } = .next { t with pending := l } := by
  by_cases hi : i = .decode
  · subst hi
    rcases execDecode_spec s with ⟨x, -, hx, hexec⟩ | ⟨hx, hexec⟩
    · exact ⟨_, hexec, rfl, rfl, fun l => execDecode_refused (s := { s with pending := l }) hx⟩
    · exact ⟨_, hexec, rfl, rfl, fun l => execDecode_accepted (s := { s with pending := l }) hx⟩
  · obtain ⟨a, hexec⟩ := exec_accessor_answered hi s
    exact ⟨s.answered a, hexec s rfl fun _ => rfl, rfl, rfl, fun l => hexec { s with pending := l } rfl fun _ => rfl⟩

/-- Settles O35: the command sees its own port and none of the later strobes; an illegal word sees neither. -/
theorem commandsSeeNoLaterCommand : Obligations.CommandsSeeNoLaterCommand := by
  intro s p rest rest'
  cases hd : decode p.cmd with
  | error e =>
    exact ⟨_, step_illegal rfl hd, rfl, rfl, step_illegal (s := { s with pending := p :: rest' }) rfl hd⟩
  | ok i =>
    obtain ⟨t, hexec, hpending, hrx, hlater⟩ := exec_setPending i { s with rx := p.rx, pending := rest }
    exact ⟨t, (step_legal rfl hd).trans hexec, hpending, hrx, (step_legal rfl hd).trans (hlater rest')⟩

/-- With a strobe pending a step answers a next state in which this strobe is taken. -/
theorem step_of_pending {s : State} {p : Strobe} {rest : List Strobe} (hp : s.pending = p :: rest) :
    ∃ t, step s = .next t ∧ t.pending = rest := by
  obtain ⟨t, hstep, hpending, -⟩ := commandsSeeNoLaterCommand s p rest rest
  rw [← hp] at hstep
  exact ⟨t, hstep, hpending⟩

/-- Settles O33: the two ways to present the strobe, and the step on a legal word. -/
theorem stepRunsTheDecodedCommand : Obligations.StepRunsTheDecodedCommand := by
  intro s w i hi
  refine ⟨fun rx rest => step_legal (p := ⟨w, rx⟩) rfl hi, ?_⟩
  have hword : BitVec.ofNat 8 w.toNat = w := by rw [BitVec.ofNat_toNat, BitVec.setWidth_eq]
  rw [State.withFetchWord, hword]
  exact step_legal (p := ⟨w, s.rx⟩) rfl hi

/-- Settles O34: without a strobe the step is the fault, with one it answers a next state. -/
theorem noStepWithoutACommand : Obligations.NoStepWithoutACommand := by
  intro s
  cases hp : s.pending with
  | nil =>
    have hfault := step_nil hp
    exact ⟨iff_of_true rfl hfault, fun q hq => nomatch hfault.symm.trans hq⟩
  | cons p rest =>
    obtain ⟨t, hnext, -⟩ := step_of_pending hp
    exact ⟨iff_of_false (List.cons_ne_nil p rest) fun hfault => (nomatch hnext.symm.trans hfault),
      fun q hq => nomatch hnext.symm.trans hq⟩

/-! ### `VALID` and `RPT` -/

/-- DECODE writes `VALID` to say whether it completed OK, and otherwise leaves `RPT`. -/
theorem execDecode_valid_rpt {s t : State} (h : execDecode s = .next t) :
    (t.valid = true ↔ t.status = .ok) ∧ (t.status ≠ .ok → t.rpt = s.rpt) := by
  cases hx : s.rx.refusal with
  | some x =>
    obtain rfl := Host.Outcome.next.inj (h.symm.trans (execDecode_of_refusal hx))
    exact ⟨iff_of_false nofun (RxPort.ne_ok_of_refusal hx), fun _ => rfl⟩
  | none =>
    obtain rfl := Host.Outcome.next.inj (h.symm.trans (execDecode_accepted hx))
    exact ⟨iff_of_true rfl rfl, fun herror => absurd rfl herror⟩

/-- Settles O39: 0x00 is the one word of DECODE, and neither an accessor nor an illegal word writes the two registers. -/
theorem onlyDecodeWritesValidAndReport : Obligations.OnlyDecodeWritesValidAndReport := by
  intro s t p rest hp h
  constructor
  · intro hw
    cases hd : decode p.cmd with
    | error e =>
      obtain rfl := Host.Outcome.next.inj (h.symm.trans (step_illegal hp hd))
      exact ⟨rfl, rfl⟩
    | ok i =>
      have hi : i ≠ .decode := fun hi => hw ((decode_eq_ok_decode_iff p.cmd).mp (hi ▸ hd))
      obtain ⟨t', hexec, hvalid, hrpt⟩ := exec_keeps_valid_rpt hi { s with rx := p.rx, pending := rest }
      obtain rfl := Host.Outcome.next.inj (h.symm.trans ((step_legal hp hd).trans hexec))
      exact ⟨hvalid, hrpt⟩
  · intro hw
    have hd := (decode_eq_ok_decode_iff p.cmd).mpr hw
    exact execDecode_valid_rpt (s := { s with rx := p.rx, pending := rest }) ((step_legal hp hd).symm.trans h)

end Sys2Proof.Machine
end

section
/-! Runs over the strobes to come (R77, R86, R94): every run completes, and what each step keeps holds at its end. -/

namespace Sys2Proof.Machine

/-- A run of no more steps than there are strobes completes and takes one strobe a step, and what every step keeps holds at
its end if it holds at its start. -/
theorem run_keeps {I : State → Prop} (hkeep : ∀ {s t : State}, I s → step s = .next t → I t) {n : Nat} {s : State}
    (hs : I s) (hn : n ≤ s.pending.length) :
    ∃ t, Sys2Proof.core.run n s = .next t ∧ t.pending = s.pending.drop n ∧ I t := by
  induction n generalizing s with
  | zero => exact ⟨s, run_zero s, rfl, hs⟩
  | succ n ih =>
    obtain ⟨p, rest, hp⟩ := List.exists_cons_of_length_pos (Nat.lt_of_lt_of_le n.succ_pos hn)
    obtain ⟨s', hstep, hrest⟩ := step_of_pending hp
    have hn' : n ≤ s'.pending.length := by
      rw [hp, List.length_cons] at hn
      rw [hrest]
      omega
    obtain ⟨t, hrun, hdrop, ht⟩ := ih (hkeep hs hstep) hn'
    exact ⟨t, (run_succ hstep n).trans hrun, by rw [hdrop, hrest, hp, List.drop_succ_cons], ht⟩

/-- Settles O42: a run keeps nothing in particular. -/
theorem everyQueueOfCommandsRuns : Obligations.EveryQueueOfCommandsRuns := by
  intro s n hn
  obtain ⟨t, hrun, hdrop, -⟩ := run_keeps (I := fun _ => True) (fun _ _ => trivial) trivial hn
  exact ⟨t, hrun, hdrop⟩

/-! ### Runs without a report -/

/-- No report is held, `RPT` is r, and no strobe to come is a DECODE of an acceptable report. -/
structure State.Unheld (r : Report) (s : State) : Prop where
  valid : s.valid = false
  rpt : s.rpt = r
  pending : ∀ p ∈ s.pending, p.cmd = 0x00#8 → p.rx.accepted = false

/-- A command without a report, DECODE of an unacceptable port included, ends in an error. -/
theorem exec_unheld {i : Instr} {s : State} (hv : s.valid = false) (hdecode : i = .decode → s.rx.accepted = false) :
    ∃ x, x ≠ .ok ∧ exec i s = .next (s.raise x) := by
  by_cases hi : i = .decode
  · subst hi
    have hcleared : { s with valid := false } = s := hv ▸ rfl
    cases hx : s.rx.refusal with
    | some x => exact ⟨x, RxPort.ne_ok_of_refusal hx, hcleared ▸ execDecode_refused hx⟩
    | none => simp [RxPort.accepted, hx] at hdecode
  · rcases exec_accessor_unheld hi hv with hexec | hexec
    · exact ⟨.noReport, by decide, hexec⟩
    · exact ⟨.outOfRange, by decide, hexec⟩

/-- A step without a report ends in an error. -/
theorem State.Unheld.step_raises {r : Report} {s t : State} (hs : s.Unheld r) (h : step s = .next t) :
    ∃ p rest x, s.pending = p :: rest ∧ x ≠ .ok ∧ t = State.raise x { s with rx := p.rx, pending := rest } := by
  obtain ⟨p, rest, hp, ⟨-, -, ht⟩ | ⟨i, hd, hexec⟩⟩ := step_next_cases h
  · exact ⟨p, rest, .illegal, hp, by decide, ht⟩
  · have hdecode : i = .decode → p.rx.accepted = false := fun hi =>
      hs.pending p (by simp [hp]) ((decode_eq_ok_decode_iff p.cmd).mp (hi ▸ hd))
    obtain ⟨x, hx, hraise⟩ := exec_unheld (s := { s with rx := p.rx, pending := rest }) hs.valid hdecode
    exact ⟨p, rest, x, hp, hx, Host.Outcome.next.inj (hexec.symm.trans hraise)⟩

theorem State.Unheld.of_step {r : Report} {s t : State} (hs : s.Unheld r) (h : step s = .next t) :
    t.Unheld r ∧ t.status ≠ .ok ∧ t.result = 0#12 := by
  obtain ⟨p, rest, x, hp, hx, rfl⟩ := hs.step_raises h
  exact ⟨⟨hs.valid, hs.rpt, fun q hq => hs.pending q (hp ▸ List.mem_cons_of_mem p hq)⟩, hx, rfl⟩

/-- What a run from `s` without a report leaves: still none is held, and once a strobe was taken the last command ended in
an error. -/
structure State.UnheldSince (s t : State) : Prop where
  unheld : t.Unheld s.rpt
  error : t.pending.length < s.pending.length → t.status ≠ .ok ∧ t.result = 0#12

theorem State.UnheldSince.of_step {s t t' : State} (ht : s.UnheldSince t) (h : step t = .next t') : s.UnheldSince t' := by
  obtain ⟨hunheld, herror⟩ := ht.unheld.of_step h
  exact ⟨hunheld, fun _ => herror⟩

/-- Settles O2: a run keeps `UnheldSince`, and without a report the bundle is 0. -/
theorem noReportUntilDecodeSucceeds : Obligations.NoReportUntilDecodeSucceeds := by
  intro s n hv hn hpending
  have hunheld : s.Unheld s.rpt := ⟨hv, rfl, fun p hp hcmd =>
    Bool.eq_false_iff.mpr fun hacc => hpending p hp ⟨hcmd, p.rx.accepted_iff.mp hacc⟩⟩
  have hstart : s.UnheldSince s := ⟨hunheld, fun hless => absurd hless (lt_irrefl _)⟩
  obtain ⟨t, hrun, hdrop, ht, herror⟩ := run_keeps State.UnheldSince.of_step hstart hn
  refine ⟨t, hrun, ht.valid, ht.rpt, bundle_eq_zero ht.valid, fun hpos => herror ?_⟩
  rw [hdrop, List.length_drop]
  omega

/-! ### Runs of a disciplined host -/

theorem disciplined_cons_decode {p : Strobe} (hd : decode p.cmd = .ok .decode) (held : Bool) (rest : List Strobe) :
    disciplined held (p :: rest) = disciplined p.rx.accepted rest := by
  rw [disciplined, hd]

theorem disciplined_cons_accessor {p : Strobe} {i : Instr} (hd : decode p.cmd = .ok i) (hi : i ≠ .decode) (held : Bool)
    (rest : List Strobe) : disciplined held (p :: rest) = (held && i.inRange && disciplined held rest) := by
  rw [disciplined, hd]
  cases i with
  | decode => exact absurd rfl hi
  | _ => rfl

theorem disciplined_cons_illegal {p : Strobe} {e : IllegalWord} (hd : decode p.cmd = .error e) (held : Bool)
    (rest : List Strobe) : disciplined held (p :: rest) = false := by
  rw [disciplined, hd]

/-- `FAULT` is f, and the strobes to come keep the frame discipline. -/
structure State.Disciplined (f : BitVec 3) (s : State) : Prop where
  fault : s.fault = f
  discipline : disciplined s.valid s.pending = true

/-- DECODE sets no bit of `FAULT`, and `VALID` to whether it accepts the port. -/
theorem execDecode_fault_valid (s : State) :
    ∃ t, execDecode s = .next t ∧ t.fault = s.fault ∧ t.valid = s.rx.accepted ∧ t.pending = s.pending := by
  unfold RxPort.accepted
  cases hx : s.rx.refusal with
  | some x => exact ⟨_, execDecode_of_refusal hx, rfl, rfl, rfl⟩
  | none => exact ⟨_, execDecode_accepted hx, rfl, rfl, rfl⟩

/-- A strobe of a disciplined host is a DECODE, or an accessor that completes. -/
theorem State.Disciplined.of_step {f : BitVec 3} {s t : State} (hs : s.Disciplined f) (h : step s = .next t) :
    t.Disciplined f := by
  obtain ⟨hfault, hdisc⟩ := hs
  obtain ⟨p, rest, hp, ⟨e, hd, -⟩ | ⟨i, hd, hexec⟩⟩ := step_next_cases h <;> rw [hp] at hdisc
  · rw [disciplined_cons_illegal hd] at hdisc
    cases hdisc
  · by_cases hi : i = .decode
    · subst hi
      rw [disciplined_cons_decode hd] at hdisc
      obtain ⟨t', hexec', hfault', hvalid, hpending⟩ := execDecode_fault_valid { s with rx := p.rx, pending := rest }
      obtain rfl := Host.Outcome.next.inj (hexec.symm.trans hexec')
      exact ⟨hfault'.trans hfault, by rw [hvalid, hpending]; exact hdisc⟩
    · rw [disciplined_cons_accessor hd hi, Bool.and_eq_true, Bool.and_eq_true] at hdisc
      obtain ⟨⟨hheld, hrange⟩, hrest⟩ := hdisc
      obtain ⟨v, hok⟩ := exec_completes hi hrange (s := { s with rx := p.rx, pending := rest }) hheld
      obtain rfl := Host.Outcome.next.inj (hexec.symm.trans hok)
      exact ⟨hfault, hrest⟩

/-- Settles O43: a run keeps the discipline with `FAULT` as it was. -/
theorem disciplinedHostNeverFaults : Obligations.DisciplinedHostNeverFaults := by
  intro s n hdisc hn
  obtain ⟨t, hrun, -, hfault, hdisc'⟩ := run_keeps State.Disciplined.of_step ⟨rfl, hdisc⟩ hn
  exact ⟨t, hrun, hfault, hdisc', (congrArg (· != 0b000#3) hfault).trans⟩

end Sys2Proof.Machine
end

section
/-! The invariant of the registers (R6 to R10, R13, R17): it holds at reset and every step keeps it. -/

namespace Sys2Proof.Machine

/-- Settles O40: at reset no report is held, the registers are 0, and nothing is presented. -/
theorem invariantHoldsAtReset : Obligations.InvariantHoldsAtReset where
  canonical := ⟨List.Pairwise.nil, fun _ hc => nomatch hc⟩
  heldId := nofun
  resultZero _ := rfl
  faultSet := rfl
  notHeld _ := rfl
  noneAtReset _ := ⟨rfl, rfl⟩
  deliverable _ hp := nomatch hp

/-- Taking a strobe leaves the registers. -/
theorem State.Inv.takeStrobe {s : State} (hs : s.Inv) {p : Strobe} {rest : List Strobe} (hp : s.pending = p :: rest) :
    State.Inv { s with rx := p.rx, pending := rest } where
  canonical := hs.canonical
  heldId := hs.heldId
  resultZero := hs.resultZero
  faultSet := hs.faultSet
  notHeld := hs.notHeld
  noneAtReset := hs.noneAtReset
  deliverable q hq := hs.deliverable q (hp ▸ List.mem_cons_of_mem p hq)

/-- Clearing `VALID` keeps the invariant, whose claims about a held report then say nothing. -/
theorem State.Inv.clearValid {s : State} (hs : s.Inv) : State.Inv { s with valid := false } where
  canonical := hs.canonical
  heldId := nofun
  resultZero := hs.resultZero
  faultSet := hs.faultSet
  notHeld _ := rfl
  noneAtReset hnone := ⟨rfl, (hs.noneAtReset hnone).2⟩
  deliverable := hs.deliverable

/-- The bits that were just set are set. -/
theorem or_and_cancel_right (f b : BitVec 3) : (f ||| b) &&& b = b := by
  ext i
  simpa using Or.inr

/-- Raising a status keeps the invariant, if no report is held where the status says that none is. -/
theorem State.Inv.raise {s : State} (hs : s.Inv) {x : Status} (hnone : x ≠ .none)
    (hnotHeld : x = .noData ∨ x = .tooShort ∨ x = .badReportId ∨ x = .noReport → s.valid = false) : (s.raise x).Inv where
  canonical := hs.canonical
  heldId := hs.heldId
  resultZero _ := rfl
  faultSet := or_and_cancel_right s.fault x.faultBits
  notHeld := hnotHeld
  noneAtReset hx := absurd hx hnone
  deliverable := hs.deliverable

/-- Completing OK meets the invariant wherever the report space does. -/
theorem State.inv_complete {s : State} (hcanonical : s.rpt.wf) (hheld : s.valid = true → s.rpt.read 0 = Config.reportId)
    (hdeliverable : ∀ p ∈ s.pending, p.Deliverable) (v : Sample) : (s.complete v).Inv where
  canonical := hcanonical
  heldId := hheld
  resultZero herror := absurd rfl herror
  faultSet := BitVec.and_zero
  notHeld hx := by simp at hx
  noneAtReset := nofun
  deliverable := hdeliverable

/-- DECODE keeps the invariant: a refusal leaves no report, and an accepted one has the identifier in byte 0. -/
theorem State.Inv.of_execDecode {s t : State} (hs : s.Inv) (h : execDecode s = .next t) : t.Inv := by
  rcases execDecode_spec s with ⟨x, hx, -, hexec⟩ | ⟨hacc, hexec⟩ <;>
    obtain rfl := Host.Outcome.next.inj (h.symm.trans hexec)
  · exact hs.clearValid.raise (by rcases hx with rfl | rfl | rfl <;> decide) fun _ => rfl
  · obtain ⟨hlen, hid⟩ := RxPort.report_of_refusal_none hacc
    refine State.inv_complete ?_ (fun _ => ?_) ?_ _
    · exact wf_latched hs.canonical s.rx.bytes
    · have hbyte := read_latched hs.canonical.1 hlen (a := 0) (by decide)
      rw [← List.head?_eq_getElem?, hid] at hbyte
      exact Option.some.inj hbyte
    · exact hs.deliverable

/-- An accessor keeps the invariant: it ends NO_REPORT only when no report is held. -/
theorem State.Inv.of_exec_accessor {i : Instr} (hi : i ≠ .decode) {s t : State} (hs : s.Inv) (h : exec i s = .next t) :
    t.Inv := by
  cases hrange : i.inRange with
  | false =>
    obtain rfl := Host.Outcome.next.inj (h.symm.trans (exec_outOfRange hi hrange s))
    exact hs.raise (x := .outOfRange) (by decide) (by simp)
  | true =>
    cases hv : s.valid with
    | false =>
      obtain rfl := Host.Outcome.next.inj (h.symm.trans (exec_noReport hi hrange hv))
      exact hs.raise (x := .noReport) (by decide) fun _ => hv
    | true =>
      obtain ⟨v, hok⟩ := exec_completes hi hrange hv
      obtain rfl := Host.Outcome.next.inj (h.symm.trans hok)
      exact State.inv_complete hs.canonical hs.heldId hs.deliverable v

/-- Settles O41: taking the strobe keeps the invariant, and so does what follows: an illegal word, DECODE or an accessor. -/
theorem stepKeepsTheInvariant : Obligations.StepKeepsTheInvariant := by
  intro s t hs h
  obtain ⟨p, rest, hp, ⟨-, -, rfl⟩ | ⟨i, -, hexec⟩⟩ := step_next_cases h
  · exact (hs.takeStrobe hp).raise (by decide) (by simp)
  · by_cases hi : i = .decode
    · subst hi
      exact (hs.takeStrobe hp).of_execDecode hexec
    · exact (hs.takeStrobe hp).of_exec_accessor hi hexec

end Sys2Proof.Machine
end

section
/-! Noninterference of an unheld report (R6, R87): runs from two states that nothing visible tells apart stay so. -/

namespace Sys2Proof.Machine

namespace State.SameVisible

theorem valid_eq {s u : State} (h : s.SameVisible u) : u.valid = s.valid := (congrArg State.valid h.same :)

theorem rx_eq {s u : State} (h : s.SameVisible u) : u.rx = s.rx := (congrArg State.rx h.same :)

theorem pending_eq {s u : State} (h : s.SameVisible u) : u.pending = s.pending := (congrArg State.pending h.same :)

theorem statusPorts_eq {s u : State} (h : s.SameVisible u) : u.statusPorts = s.statusPorts :=
  (congrArg State.statusPorts h.same :)

/-- The bundle shows `RPT` only while `VALID` is 1, and then the reports are equal. -/
theorem bundle_eq {s u : State} (h : s.SameVisible u) : u.bundle = s.bundle := by
  cases hv : s.valid with
  | true => exact bundle_congr h.valid_eq (h.held hv).symm
  | false => rw [bundle_eq_zero hv, bundle_eq_zero (h.valid_eq.trans hv)]

theorem takeStrobe {s u : State} (h : s.SameVisible u) (rx : RxPort) (rest : List Strobe) :
    State.SameVisible { s with rx := rx, pending := rest } { u with rx := rx, pending := rest } where
  same := congrArg (fun v : State => { v with rx := rx, pending := rest }) h.same
  held := h.held
  leftCanonical := h.leftCanonical
  rightCanonical := h.rightCanonical

theorem answered {s u : State} (h : s.SameVisible u) (a : Status × Sample) :
    (s.answered a).SameVisible (u.answered a) where
  same := congrArg (State.answered a) h.same
  held := h.held
  leftCanonical := h.leftCanonical
  rightCanonical := h.rightCanonical

theorem clearValid {s u : State} (h : s.SameVisible u) :
    State.SameVisible { s with valid := false } { u with valid := false } where
  same := congrArg (fun v : State => { v with valid := false }) h.same
  held := nofun
  leftCanonical := h.leftCanonical
  rightCanonical := h.rightCanonical

/-- An accepted report takes the place of either report held before. -/
theorem latch {s u : State} (h : s.SameVisible u) {bytes : List Byte} (hlen : 22 ≤ bytes.length) :
    State.SameVisible { s with rpt := s.rpt.memWrite 0 (bytes.take 22), valid := true }
      { u with rpt := u.rpt.memWrite 0 (bytes.take 22), valid := true } where
  same := congrArg (fun v : State => { v with rpt := u.rpt.memWrite 0 (bytes.take 22), valid := true }) h.same
  held _ := latched_eq h.leftCanonical h.rightCanonical hlen
  leftCanonical := wf_latched h.leftCanonical bytes
  rightCanonical := wf_latched h.rightCanonical bytes

end State.SameVisible

/-- DECODE finds the same port in both states. -/
theorem execDecode_sameVisible {s u : State} (h : s.SameVisible u) :
    ∃ t v, execDecode s = .next t ∧ execDecode u = .next v ∧ t.SameVisible v := by
  cases hx : s.rx.refusal with
  | some x =>
    exact ⟨_, _, execDecode_refused hx, execDecode_refused (h.rx_eq ▸ hx), h.clearValid.answered (x, 0#12)⟩
  | none =>
    refine ⟨_, _, execDecode_accepted hx, execDecode_accepted (h.rx_eq ▸ hx), ?_⟩
    simp only [State.complete_eq_answered, h.rx_eq]
    exact h.rx_eq ▸ (h.latch (RxPort.report_of_refusal_none hx).1).answered (.ok, 0#12)

theorem exec_sameVisible {s u : State} (h : s.SameVisible u) (i : Instr) :
    ∃ t v, exec i s = .next t ∧ exec i u = .next v ∧ t.SameVisible v := by
  by_cases hi : i = .decode
  · subst hi
    exact execDecode_sameVisible h
  · obtain ⟨a, hexec⟩ := exec_accessor_answered hi s
    exact ⟨_, _, hexec s rfl fun _ => rfl, hexec u h.valid_eq fun hv => (h.held hv).symm, h.answered a⟩

/-- A step on a strobe, from either state. -/
theorem step_sameVisible {s u : State} (h : s.SameVisible u) {p : Strobe} {rest : List Strobe} (hp : s.pending = p :: rest) :
    ∃ t v, step s = .next t ∧ step u = .next v ∧ t.SameVisible v := by
  have hp' : u.pending = p :: rest := h.pending_eq.trans hp
  have htaken := h.takeStrobe p.rx rest
  cases hd : decode p.cmd with
  | error e => exact ⟨_, _, step_illegal hp hd, step_illegal hp' hd, htaken.answered (.illegal, 0#12)⟩
  | ok i =>
    rw [step_legal hp hd, step_legal hp' hd]
    exact exec_sameVisible htaken i

/-- A run stops at a fault of its first step, for any machine. -/
theorem run_succ_fault_of (M : Host.Core) {s : M.State} {f : M.Fault} (h : M.step s = .fault f) (n : Nat) :
    M.run (n + 1) s = .fault f := by
  simp only [Host.Core.run, h]

theorem run_succ_of_nil {s : State} (h : s.pending = []) (n : Nat) :
    Sys2Proof.core.run (n + 1) s = .fault Fault.noCommand :=
  run_succ_fault_of Sys2Proof.core (step_nil h) n

/-- Runs from states that nothing visible tells apart end alike. -/
theorem run_sameOutcome {s u : State} (h : s.SameVisible u) (n : Nat) :
    sameOutcome (Sys2Proof.core.run n s) (Sys2Proof.core.run n u) := by
  induction n generalizing s u with
  | zero => exact h
  | succ n ih =>
    cases hp : s.pending with
    | nil =>
      rw [run_succ_of_nil hp, run_succ_of_nil (h.pending_eq.trans hp)]
      rfl
    | cons p rest =>
      obtain ⟨t, v, hs, hu, htv⟩ := step_sameVisible h hp
      rw [run_succ hs, run_succ hu]
      exact ih htv

/-- Settles O23: the outputs are equal in two such states, and every run keeps them such. -/
theorem unheldReportIsUnobservable : Obligations.UnheldReportIsUnobservable :=
  fun n _ _ h => ⟨h.statusPorts_eq.symm, h.bundle_eq.symm, run_sameOutcome h n⟩

end Sys2Proof.Machine
end
